-- ==== Sys2Proof/Word.lean ====
section
/-! DEFINITION. The two word types of the CORE (00_scope.md R6, R8): the 8-bit addressable unit and the
32-bit register, address and instruction-pointer width. Their arithmetic is BitVec's, modulo 2^32. -/

namespace Sys2Proof

/-- `u8` of 00_scope.md R8. -/
abbrev Byte := BitVec 8

/-- `u32` of 00_scope.md R8: sums and differences are modulo 2^32. -/
abbrev Word := BitVec 32

end Sys2Proof
end

