-- ==== Sys2Proof/Config.lean ====
section
/-! DEFINITION. The construction arguments that `Machine.State.reset` is built with. The spec fixes none of their
values (00_scope.md R7): every statement about construction is made for all of them, through `State.construct`;
the values here are the launch that the spec's own programs use (95_test_vectors.md section 3). -/

namespace Sys2Proof.Config

/-- MEM_SIZE of `State.reset`. DESIGN CHOICE (log entry 1), unsafe for a statement about `State.reset` only. -/
def memSize : Nat := 0x10000

/-- INIT_EIP of `State.reset`. DESIGN CHOICE (log entry 1), unsafe for a statement about `State.reset` only. -/
def initEip : Word := 0x1000#32

/-- INIT_ESP of `State.reset`. DESIGN CHOICE (log entry 1), unsafe for a statement about `State.reset` only. -/
def initEsp : Word := 0x8000#32

/-- EFLAGS of `State.reset`: the spec leaves it unspecified and takes the width from IA-32 (10_state.md R24).
PRESUMED: the family's value at reset (log entry 2), unsafe; nothing reads it. -/
def initEflags : BitVec 32 := 0x2#32

end Sys2Proof.Config
end

