-- ==== Sys2Proof/Syntax.lean ====
section
/-! DEFINITION. The instructions as syntax: register names, the ModRM descriptor and one constructor per row of
spec/opcode_table.json. -/

namespace Sys2Proof

/-- The eight 32-bit registers, in the order of their identifiers 0..7 (00_scope.md R10, 10_state.md R13). -/
inductive Reg32 where
  | eax | ecx | edx | ebx | esp | ebp | esi | edi
  deriving DecidableEq, Repr

/-- The tagged displacement `None | Disp8(i8) | Disp32(i32)` of 30_encoding.md R51. -/
inductive Disp where
  | none
  | disp8 (d : Byte)
  | disp32 (d : Word)
  deriving DecidableEq, Repr

/-- The ModRM descriptor of 30_encoding.md R51. `regOrOpcode` is a register selector or a sub-opcode by context. -/
structure ModRM where
  mod : BitVec 2
  regOrOpcode : BitVec 3
  rm : BitVec 3
  sib : Option Byte
  disp : Disp
  deriving DecidableEq, Repr

/-- The nine instruction forms (00_scope.md R2), one constructor per row of the opcode table. A SIB form
(mod ≠ 3, rm = 4) is an instruction here: it decodes, and raises NotImplemented when its operand is resolved
(30_encoding.md R59). -/
inductive Instr where
  /-- MOV r32, imm32 (B8+r), 41_mov.md R78. -/
  | movR32Imm32 (r : Reg32) (imm : Word)
  /-- ADD rm32, r32 (01), 42_arith.md R82. -/
  | addRm32R32 (d : ModRM)
  /-- SUB rm32, imm8 (83 /5), 42_arith.md R83. -/
  | subRm32Imm8 (d : ModRM) (imm : Byte)
  /-- MOV rm32, r32 (89), 41_mov.md R79. -/
  | movRm32R32 (d : ModRM)
  /-- MOV r32, rm32 (8B), 41_mov.md R80. -/
  | movR32Rm32 (d : ModRM)
  /-- MOV rm32, imm32 (C7), 41_mov.md R81. -/
  | movRm32Imm32 (d : ModRM) (imm : Word)
  /-- INC rm32 (FF /0), 42_arith.md R84. -/
  | incRm32 (d : ModRM)
  /-- JMP rel32 (E9), 43_jmp.md R87. -/
  | jmpRel32 (rel : Word)
  /-- JMP rel8 (EB), 43_jmp.md R88. -/
  | jmpRel8 (rel : Byte)
  deriving DecidableEq, Repr

end Sys2Proof
end

