-- ==== Sys2Proof/WellFormed.lean ====
section
/-! DEFINITION. Which terms of `Instr` are instructions of the encoding: the descriptor's SIB byte and displacement
are the ones `mod` and `rm` ask for (30_encoding.md R51, R54), and a group opcode carries its sub-opcode (R49). -/

namespace Sys2Proof

/-- A SIB byte is present exactly when mod ≠ 3 and rm = 4 (30_encoding.md R46). -/
def ModRM.sibOk (d : ModRM) : Bool :=
  d.sib.isSome == (d.mod != 3#2 && d.rm == 4#3)

/-- Which displacement is populated is determined by `mod` and `rm` (30_encoding.md R51, the table of R54). -/
def ModRM.dispOk (d : ModRM) : Bool :=
  match d.disp with
  | .none => d.mod == 3#2 || (d.mod == 0#2 && d.rm != 5#3)
  | .disp8 _ => d.mod == 1#2
  | .disp32 _ => d.mod == 2#2 || (d.mod == 0#2 && d.rm == 5#3)

/-- The descriptor's invariant (30_encoding.md R51). -/
def ModRM.wf (d : ModRM) : Bool :=
  d.sibOk && d.dispOk

/-- The descriptor's invariant, and the sub-opcode of the two group opcodes (30_encoding.md R49). The
`regOrOpcode` field of C7 is not examined (30_encoding.md R62). -/
def Instr.wf : Instr → Bool
  | .movR32Imm32 _ _ => true
  | .addRm32R32 d => d.wf
  | .subRm32Imm8 d _ => d.wf && d.regOrOpcode == 5#3
  | .movRm32R32 d => d.wf
  | .movR32Rm32 d => d.wf
  | .movRm32Imm32 d _ => d.wf
  | .incRm32 d => d.wf && d.regOrOpcode == 0#3
  | .jmpRel32 _ => true
  | .jmpRel8 _ => true

end Sys2Proof
end

