-- ==== Sys2Proof/Decode.lean ====
section
/-! DEFINITION. Bit-field and byte-order helpers, the x86_decoder's dispatch, the modrm_decoder, the decoder from
bytes to instructions (total, rejecting by name), and after it the encoder. -/

namespace Sys2Proof

/-! ### Bit fields and byte order (00_scope.md R8, 20_memory.md R32) -/

/-- `sext_32` of 00_scope.md R8: bit 7 copied into bits 31..8. -/
def sext32 (b : Byte) : Word := b.signExtend 32

/-- `zext_32` of 00_scope.md R8. -/
def zext32 (b : Byte) : Word := b.zeroExtend 32

/-- The dword whose bytes, from the lowest address up, are `b0 b1 b2 b3` (20_memory.md R32). -/
def dwordOfBytes (b0 b1 b2 b3 : Byte) : Word := b3 ++ b2 ++ b1 ++ b0

/-- Byte `k` of a dword, `v[8k+7:8k]` (20_memory.md R32, R36). -/
def byteOfDword (v : Word) (k : Nat) : Byte := v.extractLsb' (8 * k) 8

/-- A dword as its four little-endian bytes (20_memory.md R32). -/
def dwordBytes (v : Word) : List Byte :=
  [byteOfDword v 0, byteOfDword v 1, byteOfDword v 2, byteOfDword v 3]

/-- The register a 3-bit field names (00_scope.md R10). -/
def Reg32.ofId (id : BitVec 3) : Reg32 :=
  match id.toNat with
  | 0 => .eax
  | 1 => .ecx
  | 2 => .edx
  | 3 => .ebx
  | 4 => .esp
  | 5 => .ebp
  | 6 => .esi
  | _ => .edi

/-- The 3-bit identifier of a register (00_scope.md R10). -/
def Reg32.id : Reg32 → BitVec 3
  | .eax => 0#3
  | .ecx => 1#3
  | .edx => 2#3
  | .ebx => 3#3
  | .esp => 4#3
  | .ebp => 5#3
  | .esi => 6#3
  | .edi => 7#3

/-- The register that the descriptor's `regOrOpcode` field selects (30_encoding.md R51). -/
def ModRM.reg (d : ModRM) : Reg32 := Reg32.ofId d.regOrOpcode

/-- The register that the descriptor's `rm` field selects (30_encoding.md R51). -/
def ModRM.rmReg (d : ModRM) : Reg32 := Reg32.ofId d.rm

/-- The displacement as it enters the address sum: a Disp8 sign-extended, a Disp32 as it is (30_encoding.md R53).
Where none is populated no rule reads it, and it stands as 0. -/
def Disp.toWord : Disp → Word
  | .none => 0#32
  | .disp8 d => sext32 d
  | .disp32 d => d

/-- The bytes a displacement occupies (30_encoding.md R46). -/
def Disp.size : Disp → Nat
  | .none => 0
  | .disp8 _ => 1
  | .disp32 _ => 4

/-- M, the bytes of the ModRM group (30_encoding.md R46, R54). -/
def ModRM.length (d : ModRM) : Nat :=
  1 + (if d.sib.isSome then 1 else 0) + d.disp.size

/-- The length of an instruction in bytes (30_encoding.md R46). -/
def Instr.length : Instr → Nat
  | .movR32Imm32 _ _ => 5
  | .addRm32R32 d => 1 + d.length
  | .subRm32Imm8 d _ => 1 + d.length + 1
  | .movRm32R32 d => 1 + d.length
  | .movR32Rm32 d => 1 + d.length
  | .movRm32Imm32 d _ => 1 + d.length + 4
  | .incRm32 d => 1 + d.length
  | .jmpRel32 _ => 5
  | .jmpRel8 _ => 2

/-! ### The x86_decoder's dispatch (30_encoding.md R47) -/

/-- The operation kinds of 30_encoding.md R47. -/
inductive OpKind where
  | movR32Imm32 (r : Reg32)
  | addRm32R32
  | group83
  | movRm32R32
  | movR32Rm32
  | movRm32Imm32
  | groupFF
  | jmpRel32
  | jmpRel8
  deriving DecidableEq, Repr

/-- The fixed mapping from the opcode byte to an operation kind; sixteen values are mapped
(30_encoding.md R47, R48). For B8..BF the register is the opcode's low 3 bits (R56). -/
def dispatch (op : Byte) : Option OpKind :=
  if op.extractLsb' 3 5 = 0b10111#5 then some (.movR32Imm32 (Reg32.ofId (op.extractLsb' 0 3)))
  else if op = 0x01#8 then some .addRm32R32
  else if op = 0x83#8 then some .group83
  else if op = 0x89#8 then some .movRm32R32
  else if op = 0x8B#8 then some .movR32Rm32
  else if op = 0xC7#8 then some .movRm32Imm32
  else if op = 0xFF#8 then some .groupFF
  else if op = 0xE9#8 then some .jmpRel32
  else if op = 0xEB#8 then some .jmpRel8
  else none

/-- Whether the ModRM byte follows the opcode (30_encoding.md R46, R47). -/
def OpKind.hasModRM : OpKind → Bool
  | .movR32Imm32 _ => false
  | .addRm32R32 => true
  | .group83 => true
  | .movRm32R32 => true
  | .movR32Rm32 => true
  | .movRm32Imm32 => true
  | .groupFF => true
  | .jmpRel32 => false
  | .jmpRel8 => false

/-- The size of the immediate or relative offset (30_encoding.md R47, R55). -/
def OpKind.immSize : OpKind → Nat
  | .movR32Imm32 _ => 4
  | .addRm32R32 => 0
  | .group83 => 1
  | .movRm32R32 => 0
  | .movR32Rm32 => 0
  | .movRm32Imm32 => 4
  | .groupFF => 0
  | .jmpRel32 => 4
  | .jmpRel8 => 1

/-! ### The decoder -/

/-- Why bytes are no instruction. -/
inductive Reject where
  /-- The opcode byte is unmapped (30_encoding.md R48). -/
  | unknownOpcode (op : Byte)
  /-- 0x83 with a sub-opcode other than 5, 0xFF with one other than 0 (30_encoding.md R49). -/
  | unsupportedSubOpcode (op : Byte) (sub : BitVec 3)
  /-- The bytes end before the instruction does. -/
  | truncated
  deriving DecidableEq, Repr

/-- One byte off the front. -/
def takeByte : List Byte → Except Reject (Byte × List Byte)
  | b :: bs => .ok (b, bs)
  | [] => .error .truncated

/-- One little-endian dword off the front (20_memory.md R34). -/
def takeDword : List Byte → Except Reject (Word × List Byte)
  | b0 :: b1 :: b2 :: b3 :: bs => .ok (dwordOfBytes b0 b1 b2 b3, bs)
  | _ => .error .truncated

/-- The SIB byte, read when mod ≠ 3 and rm = 4 (30_encoding.md R52). -/
def takeSib (mod : BitVec 2) (rm : BitVec 3) (bs : List Byte) : Except Reject (Option Byte × List Byte) :=
  if mod ≠ 3#2 ∧ rm = 4#3 then
    match takeByte bs with
    | .ok (b, bs) => .ok (some b, bs)
    | .error e => .error e
  else .ok (none, bs)

/-- The displacement, by `mod` and `rm` alone (30_encoding.md R52). -/
def takeDisp (mod : BitVec 2) (rm : BitVec 3) (bs : List Byte) : Except Reject (Disp × List Byte) :=
  if mod = 0#2 ∧ rm = 5#3 ∨ mod = 2#2 then
    match takeDword bs with
    | .ok (d, bs) => .ok (.disp32 d, bs)
    | .error e => .error e
  else if mod = 1#2 then
    match takeByte bs with
    | .ok (d, bs) => .ok (.disp8 d, bs)
    | .error e => .error e
  else .ok (.none, bs)

/-- `ModRMDecode` of 30_encoding.md R52: the descriptor and the bytes after the group. -/
def takeModRM (bs : List Byte) : Except Reject (ModRM × List Byte) :=
  match takeByte bs with
  | .error e => .error e
  | .ok (b, bs) =>
    let mod := b.extractLsb' 6 2
    let rm := b.extractLsb' 0 3
    match takeSib mod rm bs with
    | .error e => .error e
    | .ok (sib, bs) =>
      match takeDisp mod rm bs with
      | .error e => .error e
      | .ok (disp, bs) =>
        .ok ({ mod := mod, regOrOpcode := b.extractLsb' 3 3, rm := rm, sib := sib, disp := disp }, bs)

/-- The part of an instruction after its opcode byte, by operation kind: the ModRM group, then the sub-opcode check of
the two groups, then the immediate or relative offset (40_execution_cycle.md R65, R68). -/
def decodeKind (op : Byte) (kind : OpKind) (bs : List Byte) : Except Reject (Instr × List Byte) :=
  match kind with
  | .movR32Imm32 r =>
    match takeDword bs with
    | .ok (imm, bs) => .ok (.movR32Imm32 r imm, bs)
    | .error e => .error e
  | .addRm32R32 =>
    match takeModRM bs with
    | .ok (d, bs) => .ok (.addRm32R32 d, bs)
    | .error e => .error e
  | .group83 =>
    match takeModRM bs with
    | .ok (d, bs) =>
      if d.regOrOpcode ≠ 5#3 then .error (.unsupportedSubOpcode op d.regOrOpcode)
      else
        match takeByte bs with
        | .ok (imm, bs) => .ok (.subRm32Imm8 d imm, bs)
        | .error e => .error e
    | .error e => .error e
  | .movRm32R32 =>
    match takeModRM bs with
    | .ok (d, bs) => .ok (.movRm32R32 d, bs)
    | .error e => .error e
  | .movR32Rm32 =>
    match takeModRM bs with
    | .ok (d, bs) => .ok (.movR32Rm32 d, bs)
    | .error e => .error e
  | .movRm32Imm32 =>
    match takeModRM bs with
    | .ok (d, bs) =>
      match takeDword bs with
      | .ok (imm, bs) => .ok (.movRm32Imm32 d imm, bs)
      | .error e => .error e
    | .error e => .error e
  | .groupFF =>
    match takeModRM bs with
    | .ok (d, bs) =>
      if d.regOrOpcode ≠ 0#3 then .error (.unsupportedSubOpcode op d.regOrOpcode)
      else .ok (.incRm32 d, bs)
    | .error e => .error e
  | .jmpRel32 =>
    match takeDword bs with
    | .ok (rel, bs) => .ok (.jmpRel32 rel, bs)
    | .error e => .error e
  | .jmpRel8 =>
    match takeByte bs with
    | .ok (rel, bs) => .ok (.jmpRel8 rel, bs)
    | .error e => .error e

/-- The decoder: the instruction at the front of the bytes and the bytes after it, or why there is none. An unmapped
opcode byte is rejected before any further byte is looked at (30_encoding.md R48). -/
def decode : List Byte → Except Reject (Instr × List Byte)
  | [] => .error .truncated
  | op :: bs =>
    match dispatch op with
    | none => .error (.unknownOpcode op)
    | some kind => decodeKind op kind bs

/-- The longest instruction: C7 with a SIB form of mod = 2, 1 + 6 + 4 bytes (30_encoding.md R46, R54). -/
def maxInstrBytes : Nat := 11

/-- The first `n` bytes of a number whose byte 0 is its least significant one. -/
def bytesOfNat : Nat → Nat → List Byte
  | 0, _ => []
  | n + 1, w => BitVec.ofNat 8 w :: bytesOfNat n (w / 256)

/-- The bytes of a table row's word: the opcode byte is bits 7..0, every bit above `nbits` is 0. -/
def tableWordBytes (nbits w : Nat) : List Byte :=
  bytesOfNat maxInstrBytes (w % 2 ^ nbits)

/-- The instruction the decoder reads from a table row's word. -/
def decodeTableWord (nbits w : Nat) : Option Instr :=
  match decode (tableWordBytes nbits w) with
  | .ok (i, _) => some i
  | .error _ => none

/-! ### The encoder (30_encoding.md R46, R47, R51, R55) -/

/-- The opcode byte of an instruction (30_encoding.md R47). -/
def Instr.opcode : Instr → Byte
  | .movR32Imm32 r _ => 0b10111#5 ++ r.id
  | .addRm32R32 _ => 0x01#8
  | .subRm32Imm8 _ _ => 0x83#8
  | .movRm32R32 _ => 0x89#8
  | .movR32Rm32 _ => 0x8B#8
  | .movRm32Imm32 _ _ => 0xC7#8
  | .incRm32 _ => 0xFF#8
  | .jmpRel32 _ => 0xE9#8
  | .jmpRel8 _ => 0xEB#8

/-- The bytes of a displacement (30_encoding.md R46). -/
def Disp.bytes : Disp → List Byte
  | .none => []
  | .disp8 d => [d]
  | .disp32 d => dwordBytes d

/-- The ModRM byte, `mod` in bits [7:6], `regOrOpcode` in [5:3], `rm` in [2:0] (30_encoding.md R51). -/
def ModRM.byte (d : ModRM) : Byte := d.mod ++ d.regOrOpcode ++ d.rm

/-- The ModRM group: the ModRM byte, the SIB byte, the displacement (30_encoding.md R46). -/
def encodeModRM (d : ModRM) : List Byte :=
  d.byte :: (d.sib.toList ++ d.disp.bytes)

/-- The bytes of an instruction, in increasing address order (30_encoding.md R46). -/
def encode (i : Instr) : List Byte :=
  i.opcode ::
    match i with
    | .movR32Imm32 _ imm => dwordBytes imm
    | .addRm32R32 d => encodeModRM d
    | .subRm32Imm8 d imm => encodeModRM d ++ [imm]
    | .movRm32R32 d => encodeModRM d
    | .movR32Rm32 d => encodeModRM d
    | .movRm32Imm32 d imm => encodeModRM d ++ dwordBytes imm
    | .incRm32 d => encodeModRM d
    | .jmpRel32 rel => dwordBytes rel
    | .jmpRel8 rel => [rel]

end Sys2Proof
end

