-- ==== Sys2Proof/Machine/Memory.lean ====
section
/-! DEFINITION. The memory the CORE is attached to (20_memory.md): a flat array of `capacity` bytes, held as the
list of its bytes that are not what an unlisted address reads as, in strictly rising address order. The array itself
checks no bounds (20_memory.md R33); the CORE's port, which does, is in Machine/Ops.lean. -/

namespace Sys2Proof.Machine

/-- `mem : [0, MEM_SIZE) -> u8` (20_memory.md R30); `capacity` is MEM_SIZE. -/
structure Memory where
  capacity : Nat
  cells : List Host.Cell
  deriving DecidableEq, Repr

/-- What an unlisted address reads as: construction allocates a zeroed buffer (10_state.md R27). -/
def unlistedByte : Byte := 0#8

/-- The byte listed at an address, or the unlisted one. -/
def cellsGet : List Host.Cell → Nat → Byte
  | [], _ => unlistedByte
  | (k, v) :: cs, a => if k = a then v else cellsGet cs a

/-- Put a byte in front, unless it is what an unlisted address reads as. -/
def cellsCons (a : Nat) (v : Byte) (cs : List Host.Cell) : List Host.Cell :=
  if v = unlistedByte then cs else (a, v) :: cs

/-- Set one byte, keeping the order and the canonical form. -/
def cellsSet : List Host.Cell → Nat → Byte → List Host.Cell
  | [], a, v => cellsCons a v []
  | (k, w) :: cs, a, v =>
    if a < k then cellsCons a v ((k, w) :: cs)
    else if a = k then cellsCons a v cs
    else (k, w) :: cellsSet cs a v

/-- The canonical form, and MEM_SIZE in its domain (00_scope.md R7): addresses strictly rising and inside the array,
no entry equal to what an unlisted address reads as. -/
abbrev Memory.wf (m : Memory) : Prop :=
  1 ≤ m.capacity ∧ m.capacity ≤ 2 ^ 32 ∧
    m.cells.Pairwise (fun c d => c.1 < d.1) ∧
    ∀ c ∈ m.cells, c.1 < m.capacity ∧ c.2 ≠ unlistedByte

/-- The zeroed buffer of `capacity` bytes (10_state.md R27, 70_reset_and_hazards.md R109). -/
def Memory.zeroed (capacity : Nat) : Memory := { capacity := capacity, cells := [] }

/-- `addr < MEM_SIZE` (20_memory.md R31, R33). -/
def Memory.inBounds (m : Memory) (a : Word) : Bool := decide (a.toNat < m.capacity)

/-- `readByte(addr)` (20_memory.md R31). -/
def Memory.readByte (m : Memory) (a : Word) : Byte := cellsGet m.cells a.toNat

/-- `writeByte(addr, value)` (20_memory.md R31). -/
def Memory.writeByte (m : Memory) (a : Word) (v : Byte) : Memory :=
  { m with cells := cellsSet m.cells a.toNat v }

/-- `readDword(addr)`: four consecutive `readByte`, little-endian, byte addresses modulo 2^32 (20_memory.md R32). -/
def Memory.readDword (m : Memory) (a : Word) : Word :=
  dwordOfBytes (m.readByte a) (m.readByte (a + 1#32)) (m.readByte (a + 2#32)) (m.readByte (a + 3#32))

/-- `writeDword(addr, value)`: four little-endian `writeByte`, byte addresses modulo 2^32 (20_memory.md R32). -/
def Memory.writeDword (m : Memory) (a : Word) (v : Word) : Memory :=
  (((m.writeByte a (byteOfDword v 0)).writeByte (a + 1#32) (byteOfDword v 1)).writeByte (a + 2#32)
    (byteOfDword v 2)).writeByte (a + 3#32) (byteOfDword v 3)

/-- All four bytes of a dword access are inside the array (20_memory.md R33). -/
def Memory.dwordInBounds (m : Memory) (a : Word) : Bool :=
  m.inBounds a && m.inBounds (a + 1#32) && m.inBounds (a + 2#32) && m.inBounds (a + 3#32)

/-- Write bytes at consecutive addresses, leaving out those outside the array: the host's image load
(70_reset_and_hazards.md R111) and the placing of an instruction's bytes. -/
def Memory.storeBytes (m : Memory) (a : Word) : List Byte → Memory
  | [] => m
  | b :: bs => (if m.inBounds a then m.writeByte a b else m).storeBytes (a + 1#32) bs

end Sys2Proof.Machine
end

