-- ==== Sys2Proof/Machine/RegFile.lean ====
section
/-! DEFINITION. The block register_file_x86_32 (10_state.md R13 to R20): eight 32-bit registers and their 8-bit
aliases, which are views with no storage of their own. -/

namespace Sys2Proof.Machine

/-- Exactly eight slots, with a fixed identifier-to-slot mapping (10_state.md R13). -/
structure RegFile where
  eax : Word
  ecx : Word
  edx : Word
  ebx : Word
  esp : Word
  ebp : Word
  esi : Word
  edi : Word
  deriving DecidableEq, Repr

/-- All registers zero except ESP (10_state.md R27). -/
def RegFile.constructed (initEsp : Word) : RegFile :=
  { eax := 0#32, ecx := 0#32, edx := 0#32, ebx := 0#32, esp := initEsp, ebp := 0#32, esi := 0#32, edi := 0#32 }

/-- `get32(id)` (10_state.md R15). -/
def RegFile.get32 (x : RegFile) : Reg32 → Word
  | .eax => x.eax
  | .ecx => x.ecx
  | .edx => x.edx
  | .ebx => x.ebx
  | .esp => x.esp
  | .ebp => x.ebp
  | .esi => x.esi
  | .edi => x.edi

/-- `set32(id, value)` (10_state.md R16): no register is hardwired (R14). -/
def RegFile.set32 (x : RegFile) (r : Reg32) (v : Word) : RegFile :=
  match r with
  | .eax => { x with eax := v }
  | .ecx => { x with ecx := v }
  | .edx => { x with edx := v }
  | .ebx => { x with ebx := v }
  | .esp => { x with esp := v }
  | .ebp => { x with ebp := v }
  | .esi => { x with esi := v }
  | .edi => { x with edi := v }

/-- `get8(id)`: bits [7:0] of slot `id` for ids 0..3, bits [15:8] of slot `id - 4` for ids 4..7
(10_state.md R17). The id is a 3-bit field (R19). -/
def RegFile.get8 (x : RegFile) (id : BitVec 3) : Byte :=
  if id.toNat < 4 then (x.get32 (Reg32.ofId id)).extractLsb' 0 8
  else (x.get32 (Reg32.ofId (id - 4#3))).extractLsb' 8 8

/-- `set8(id, value)`: a read-modify-write of the owning register that keeps its other 24 bits
(10_state.md R18). -/
def RegFile.set8 (x : RegFile) (id : BitVec 3) (v : Byte) : RegFile :=
  if id.toNat < 4 then
    let r := Reg32.ofId id
    x.set32 r ((x.get32 r).extractLsb' 8 24 ++ v)
  else
    let r := Reg32.ofId (id - 4#3)
    x.set32 r ((x.get32 r).extractLsb' 16 16 ++ v ++ (x.get32 r).extractLsb' 0 8)

end Sys2Proof.Machine
end

