-- ==== Sys2Proof/Machine/State.lean ====
section
/-! DEFINITION. The architectural state (10_state.md R12), the ways a step can stop, and the state after construction
(10_state.md R27, 70_reset_and_hazards.md R109). -/

namespace Sys2Proof.Machine

/-- The three error kinds (60_exceptions.md R91). -/
inductive ErrorKind where
  | unknownOpcode
  | notImplemented
  | outOfBounds
  deriving DecidableEq, Repr

/-- The run status (10_state.md R26). -/
inductive Status where
  /-- The CORE steps. -/
  | running
  /-- `eip` was outside [0, MEM_SIZE) at a fetch. -/
  | haltedRange
  /-- `eip` equalled 0 after an instruction. -/
  | haltedSentinel
  /-- An error stopped the CORE: its kind, the address of the faulting instruction's opcode byte, and that byte. -/
  | faulted (kind : ErrorKind) (faultEip : Word) (opcode : Byte)
  deriving DecidableEq, Repr

/-- The complete architectural state `(x[0..7], eip, mem, eflags, status)` (10_state.md R12). MEM_SIZE is the
memory's capacity, so that a statement about all states holds for every MEM_SIZE. -/
structure State where
  regs : RegFile
  eip : Word
  mem : Memory
  eflags : BitVec 32
  status : Status
  deriving DecidableEq, Repr

/-- Why the machine has no next state: its status is terminal, and a terminal state has no step
(40_execution_cycle.md R75). The three error kinds are not here: raising one IS a step, whose next state is FAULTED
(60_exceptions.md R96; log entry 4). Each of these is safe: the spec gives such a state no step either. -/
inductive Fault where
  /-- Raised by `step` alone, in a state that is HALTED_RANGE. Safe. -/
  | haltedRange
  /-- Raised by `step` alone, in a state that is HALTED_SENTINEL. Safe. -/
  | haltedSentinel
  /-- Raised by `step` alone, in a state that is FAULTED; it carries what the CORE reports. Safe. -/
  | faulted (kind : ErrorKind) (faultEip : Word) (opcode : Byte)
  deriving DecidableEq, Repr

/-- What the model gives no meaning to. -/
inductive Refusal where
  /-- An instruction with no meaning yet, by its mnemonic. No arm of `exec` answers it. Safe. -/
  | notModelled (mnemonic : String)
  /-- Raised by `hostConstruct` alone: MEM_SIZE outside its domain (00_scope.md R7; log entry 10). Safe. -/
  | memSizeOutsideDomain
  /-- Raised by `hostLoadImage` alone: an image that does not lie inside [0, MEM_SIZE), a breach of the host's duty
  (70_reset_and_hazards.md R111), or an empty one at an offset above it (log entry 10). Safe. -/
  | imageOutsideMemory
  deriving DecidableEq, Repr

/-- What a step or an instruction answers. -/
abbrev Answer := Host.Outcome State Fault Refusal

/-- Replace the register file. -/
def State.setRegs (s : State) (x : RegFile) : State := { s with regs := x }

/-- Replace the instruction pointer. -/
def State.setEip (s : State) (a : Word) : State := { s with eip := a }

/-- Replace the memory. -/
def State.setMem (s : State) (m : Memory) : State := { s with mem := m }

/-- Replace EFLAGS. -/
def State.setEflags (s : State) (f : BitVec 32) : State := { s with eflags := f }

/-- Replace the run status. -/
def State.setStatus (s : State) (st : Status) : State := { s with status := st }

/-- Construction `new(memorySize, initialEip, initialEsp)` (10_state.md R27, 70_reset_and_hazards.md R109). The spec
leaves EFLAGS unspecified there, so its value is an argument. -/
def State.construct (memSize : Nat) (initEip initEsp : Word) (eflags : BitVec 32) : State :=
  { regs := RegFile.constructed initEsp
    eip := initEip
    mem := Memory.zeroed memSize
    eflags := eflags
    status := .running }

/-- The machine right after construction with the arguments of Config (log entries 1 and 2). No program is in it: the
host loads the image afterwards (log entry 3). -/
def State.reset : State :=
  State.construct Config.memSize Config.initEip Config.initEsp Config.initEflags

end Sys2Proof.Machine
end

