-- ==== Sys2Proof/Machine/Flags.lean ====
section
/-! DEFINITION. Flags: the CORE computes none (42_arith.md R85, 40_execution_cycle.md R77). EFLAGS is inert
storage that no instruction reads or writes (10_state.md R24). -/

namespace Sys2Proof.Machine

/-- EFLAGS after a completed instruction, whichever it is: what it was before (10_state.md R24). -/
def eflagsAfter (eflags : BitVec 32) : BitVec 32 := eflags

end Sys2Proof.Machine
end

