-- ==== Sys2Proof/Machine/Ops.lean ====
section
/-! DEFINITION. The operations every instruction shares: the bounds-checked memory port, the ALU, the commit of an
instruction's effects, raising an error, and the two halts. -/

namespace Sys2Proof.Machine

/-! ### The memory port (20_memory.md R33, R38) -/

/-- `MemRead(a, 1)`, bounds-checked. -/
def memRead1 (m : Memory) (a : Word) : Except ErrorKind Byte :=
  if m.inBounds a then .ok (m.readByte a) else .error .outOfBounds

/-- `MemRead(a, 4)`, every byte bounds-checked. -/
def memRead4 (m : Memory) (a : Word) : Except ErrorKind Word :=
  if m.dwordInBounds a then .ok (m.readDword a) else .error .outOfBounds

/-- The bytes from `a` upward, modulo 2^32, at most `n`, as far as the array goes. -/
def fetchWindow (m : Memory) : Nat → Word → List Byte
  | 0, _ => []
  | n + 1, a =>
    match memRead1 m a with
    | .ok b => b :: fetchWindow m n (a + 1#32)
    | .error _ => []

/-! ### The instruction_dispatch_alu (40_execution_cycle.md R77) -/

/-- The ALU's operations with their operands. -/
inductive AluOp where
  | pass (b : Word)
  | add (a b : Word)
  | sub (a b : Word)
  | inc (a : Word)
  deriving DecidableEq, Repr

/-- The ALU's result, modulo 2^32, with no flag output (40_execution_cycle.md R77, 42_arith.md R85). -/
def alu : AluOp → Word
  | .pass b => b
  | .add a b => a + b
  | .sub a b => a - b
  | .inc a => a + 1#32

/-- The jump-target sum `eipNew = next + disp`, modulo 2^32 (40_execution_cycle.md R77, 43_jmp.md R86). -/
def jumpTarget (next disp : Word) : Word := next + disp

/-- `next`, the address after the instruction, modulo 2^32 (40_execution_cycle.md R65, R72). -/
def nextEip (s : State) (i : Instr) : Word := s.eip + BitVec.ofNat 32 i.length

/-! ### Execute and commit (40_execution_cycle.md R69, R70) -/

/-- What the execute phase produces: at most one register write, at most one 4-byte memory write, and the new `eip`
(40_execution_cycle.md R69). -/
structure Effects where
  regW : Option (Reg32 × Word)
  memW : Option (Word × Word)
  eipNew : Word
  deriving DecidableEq, Repr

/-- The register file after `regW`. -/
def commitRegs (x : RegFile) : Option (Reg32 × Word) → RegFile
  | none => x
  | some (r, v) => x.set32 r v

/-- The memory after `memW`, whose bounds the execute phase has checked. -/
def commitMem (m : Memory) : Option (Word × Word) → Memory
  | none => m
  | some (a, v) => m.writeDword a v

/-- Commit: `regW`, then `memW`, then `eip` (40_execution_cycle.md R70). -/
def commit (s : State) (e : Effects) : State :=
  (((s.setRegs (commitRegs s.regs e.regW)).setMem (commitMem s.mem e.memW)).setEip e.eipNew).setEflags
    (eflagsAfter s.eflags)

/-! ### Errors and halts -/

/-- The code of an error kind (60_exceptions.md R91). -/
def ErrorKind.code : ErrorKind → Nat
  | .unknownOpcode => 1
  | .notImplemented => 2
  | .outOfBounds => 3

/-- Raising an error: nothing changes but `status`, which becomes FAULTED(kind, eip0, opcode) (60_exceptions.md R96).
There is no trap entry beyond this (R99) and no return from it (R100). -/
def raiseError (kind : ErrorKind) (opcode : Byte) (s : State) : State :=
  s.setStatus (.faulted kind s.eip opcode)

/-- The end of an instruction: commit its effects, or raise the error its execute phase met, with its opcode byte. -/
def conclude (i : Instr) (s : State) : Except ErrorKind Effects → Answer
  | .ok e => .next (commit s e)
  | .error k => .next (raiseError k i.opcode s)

/-- HALTED_RANGE, before a fetch outside memory: nothing else changes (40_execution_cycle.md R66). -/
def haltRange (s : State) : State := s.setStatus .haltedRange

/-- The sentinel test after an instruction: a completed one (the CORE still runs) that left `eip` at 0 halts it
(40_execution_cycle.md R71). An instruction that raised an error did not complete. -/
def sentinelTest (s : State) : State :=
  if s.status = .running ∧ s.eip = 0#32 then s.setStatus .haltedSentinel else s

/-- The sentinel test on what an instruction answers. -/
def afterInstr : Answer → Answer
  | .next t => .next (sentinelTest t)
  | .fault f => .fault f
  | .refused r => .refused r

/-- A terminal status has no step (40_execution_cycle.md R75); RUNNING has one. -/
def noStep : Status → Option Fault
  | .running => none
  | .haltedRange => some .haltedRange
  | .haltedSentinel => some .haltedSentinel
  | .faulted k a op => some (.faulted k a op)

end Sys2Proof.Machine
end

