-- ==== Sys2Proof/Machine/Operands.lean ====
section
/-! DEFINITION. The effective_address_calculator (30_encoding.md R58 to R61) and access to the `rm` operand
(40_execution_cycle.md R73, R74). -/

namespace Sys2Proof.Machine

/-- OperandLocation: `Register(rm)` or `Memory(address)` (00_scope.md R11). -/
inductive Loc where
  | register (r : Reg32)
  | memory (a : Word)
  deriving DecidableEq, Repr

/-- The effective_address_calculator (30_encoding.md R58, R60): `base` is the value of the register `rm` names. The sum
is modulo 2^32 and is not bounds-checked here. A SIB form raises NotImplemented (R59). -/
def effectiveAddress (mod : BitVec 2) (rm : BitVec 3) (disp : Disp) (base : Word) : Except ErrorKind Loc :=
  if mod = 3#2 then .ok (.register (Reg32.ofId rm))
  else if rm = 4#3 then .error .notImplemented
  else if mod = 0#2 ∧ rm = 5#3 then .ok (.memory disp.toWord)
  else if mod = 0#2 then .ok (.memory base)
  else .ok (.memory (base + disp.toWord))

/-- `Resolve(d)`, on the register values at the start of the instruction (30_encoding.md R58). -/
def resolve (x : RegFile) (d : ModRM) : Except ErrorKind Loc :=
  effectiveAddress d.mod d.rm d.disp (x.get32 d.rmReg)

/-- `ReadRM32(loc)` (40_execution_cycle.md R73). -/
def readRM32 (s : State) : Loc → Except ErrorKind Word
  | .register r => .ok (s.regs.get32 r)
  | .memory a => memRead4 s.mem a

/-- `WriteRM32(loc, v)`: the write, its bounds checked, to be applied at commit (40_execution_cycle.md R74). -/
def writeRM32 (s : State) (loc : Loc) (v eipNew : Word) : Except ErrorKind Effects :=
  match loc with
  | .register r => .ok { regW := some (r, v), memW := none, eipNew := eipNew }
  | .memory a =>
    if s.mem.dwordInBounds a then .ok { regW := none, memW := some (a, v), eipNew := eipNew }
    else .error .outOfBounds

/-- The execute phase of a form that only writes its `rm` operand: resolve, then write (41_mov.md R79, R81). -/
def storeRM32 (s : State) (d : ModRM) (v eipNew : Word) : Except ErrorKind Effects :=
  match resolve s.regs d with
  | .error k => .error k
  | .ok loc => writeRM32 s loc v eipNew

/-- The execute phase of a form that reads its `rm` operand into a register: resolve, then read (41_mov.md R80). -/
def loadRM32 (s : State) (d : ModRM) (r : Reg32) (eipNew : Word) : Except ErrorKind Effects :=
  match resolve s.regs d with
  | .error k => .error k
  | .ok loc =>
    match readRM32 s loc with
    | .error k => .error k
    | .ok v => .ok { regW := some (r, alu (.pass v)), memW := none, eipNew := eipNew }

/-- The execute phase of a read-modify-write form: resolve, read, compute, write at the same location
(42_arith.md R82 to R84). `op` is the ALU operation of the value read. -/
def modifyRM32 (s : State) (d : ModRM) (op : Word → AluOp) (eipNew : Word) : Except ErrorKind Effects :=
  match resolve s.regs d with
  | .error k => .error k
  | .ok loc =>
    match readRM32 s loc with
    | .error k => .error k
    | .ok a => writeRM32 s loc (alu (op a)) eipNew

end Sys2Proof.Machine
end

