-- ==== Sys2Proof/Machine/Arith.lean ====
section
/-! DEFINITION. The arithmetic family (42_arith.md). None of them touches EFLAGS. The sub-opcode of SUB and INC is
checked where the spec checks it, between the ModRM group and the immediate, in the decoder (40_execution_cycle.md R65,
R68). -/

namespace Sys2Proof.Machine

/-- ADD rm32, r32 (42_arith.md R82). -/
def execAddRm32R32 (d : ModRM) (s : State) : Answer :=
  let i := Instr.addRm32R32 d
  conclude i s (modifyRM32 s d (fun a => .add a (s.regs.get32 d.reg)) (nextEip s i))

/-- SUB rm32, imm8, 83 /5 (42_arith.md R83): the immediate is sign-extended. -/
def execSubRm32Imm8 (d : ModRM) (imm : Byte) (s : State) : Answer :=
  let i := Instr.subRm32Imm8 d imm
  conclude i s (modifyRM32 s d (fun a => .sub a (sext32 imm)) (nextEip s i))

/-- INC rm32, FF /0 (42_arith.md R84). -/
def execIncRm32 (d : ModRM) (s : State) : Answer :=
  let i := Instr.incRm32 d
  conclude i s (modifyRM32 s d (fun a => .inc a) (nextEip s i))

end Sys2Proof.Machine
end

