-- ==== Sys2Proof/Machine/Jmp.lean ====
section
/-! DEFINITION. The jumps (43_jmp.md): the target is the address of the byte after the whole instruction plus the signed
offset (R86). They read and write no general register and no memory data. -/

namespace Sys2Proof.Machine

/-- JMP rel32 (43_jmp.md R87). -/
def execJmpRel32 (rel : Word) (s : State) : Answer :=
  let i := Instr.jmpRel32 rel
  conclude i s (.ok { regW := none, memW := none, eipNew := jumpTarget (nextEip s i) rel })

/-- JMP rel8 (43_jmp.md R88): the offset is sign-extended. -/
def execJmpRel8 (rel : Byte) (s : State) : Answer :=
  let i := Instr.jmpRel8 rel
  conclude i s (.ok { regW := none, memW := none, eipNew := jumpTarget (nextEip s i) (sext32 rel) })

end Sys2Proof.Machine
end

