-- ==== Sys2Proof/Machine/Mov.lean ====
section
/-! DEFINITION. The MOV family (41_mov.md). -/

namespace Sys2Proof.Machine

/-- MOV r32, imm32 (41_mov.md R78). -/
def execMovR32Imm32 (r : Reg32) (imm : Word) (s : State) : Answer :=
  let i := Instr.movR32Imm32 r imm
  conclude i s (.ok { regW := some (r, alu (.pass imm)), memW := none, eipNew := nextEip s i })

/-- MOV rm32, r32 (41_mov.md R79): a memory destination is written without being read. -/
def execMovRm32R32 (d : ModRM) (s : State) : Answer :=
  let i := Instr.movRm32R32 d
  conclude i s (storeRM32 s d (alu (.pass (s.regs.get32 d.reg))) (nextEip s i))

/-- MOV r32, rm32 (41_mov.md R80). -/
def execMovR32Rm32 (d : ModRM) (s : State) : Answer :=
  let i := Instr.movR32Rm32 d
  conclude i s (loadRM32 s d d.reg (nextEip s i))

/-- MOV rm32, imm32 (41_mov.md R81): the `regOrOpcode` field is not examined (30_encoding.md R62; log entry 6). -/
def execMovRm32Imm32 (d : ModRM) (imm : Word) (s : State) : Answer :=
  let i := Instr.movRm32Imm32 d imm
  conclude i s (storeRM32 s d (alu (.pass imm)) (nextEip s i))

end Sys2Proof.Machine
end

