-- ==== Sys2Proof/Machine/Dispatch.lean ====
section
/-! DEFINITION. The instruction dispatch: one arm per constructor of Instr. -/

namespace Sys2Proof.Machine

def exec (i : Instr) (s : State) : Host.Outcome State Fault Refusal :=
  match i with
  | .movR32Imm32 r imm => Sys2Proof.Machine.execMovR32Imm32 r imm s
  | .addRm32R32 d => Sys2Proof.Machine.execAddRm32R32 d s
  | .subRm32Imm8 d imm => Sys2Proof.Machine.execSubRm32Imm8 d imm s
  | .movRm32R32 d => Sys2Proof.Machine.execMovRm32R32 d s
  | .movR32Rm32 d => Sys2Proof.Machine.execMovR32Rm32 d s
  | .movRm32Imm32 d imm => Sys2Proof.Machine.execMovRm32Imm32 d imm s
  | .incRm32 d => Sys2Proof.Machine.execIncRm32 d s
  | .jmpRel32 rel => Sys2Proof.Machine.execJmpRel32 rel s
  | .jmpRel8 rel => Sys2Proof.Machine.execJmpRel8 rel s

end Sys2Proof.Machine
end

