-- ==== Sys2Proof/Machine/Fetch.lean ====
section
/-! DEFINITION. The x86_fetch_unit's fetch and decode (40_execution_cycle.md R65 to R68). -/

namespace Sys2Proof.Machine

/-- What a fetch at `eip` ends in. -/
inductive Fetched where
  /-- `eip` is outside [0, MEM_SIZE): no fetch (40_execution_cycle.md R66). -/
  | outOfRange
  /-- An error before the execute phase, with the opcode byte (60_exceptions.md R96). -/
  | failed (kind : ErrorKind) (opcode : Byte)
  /-- An instruction, all its bytes read. -/
  | instr (i : Instr)
  deriving DecidableEq, Repr

/-- The error kind of bytes that are no instruction. Bytes that end early are the end of memory: the instruction's
next byte is out of bounds (20_memory.md R33, 60_exceptions.md R94; log entry 7). -/
def rejectKind : Reject → ErrorKind
  | .unknownOpcode _ => .unknownOpcode
  | .unsupportedSubOpcode _ _ => .notImplemented
  | .truncated => .outOfBounds

/-- The bytes at `eip`, as far as an instruction and the memory go. -/
def fetchBytes (s : State) : List Byte := fetchWindow s.mem maxInstrBytes s.eip

/-- Range check, opcode fetch and decode, in the order of 40_execution_cycle.md R65 and 60_exceptions.md R97. -/
def fetch (s : State) : Fetched :=
  if s.mem.inBounds s.eip then
    match decode (fetchBytes s) with
    | .ok (i, _) => .instr i
    | .error e => .failed (rejectKind e) (s.mem.readByte s.eip)
  else .outOfRange

end Sys2Proof.Machine
end

