-- ==== Sys2Proof/Machine/Step.lean ====
section
/-! DEFINITION. One step of the x86_fetch_unit (40_execution_cycle.md R65), and the placing of an instruction where it
fetches. -/

namespace Sys2Proof.Machine

/-- The step: none in a terminal state (40_execution_cycle.md R75); else the range halt (R66), an error (60_exceptions.md
R96), or one instruction, fully, and the sentinel test after it (R71). -/
def step (s : State) : Host.Outcome State Fault Refusal :=
  match noStep s.status with
  | some f => .fault f
  | none =>
    match fetch s with
    | .outOfRange => .next (haltRange s)
    | .failed k op => .next (raiseError k op s)
    | .instr i => afterInstr (exec i s)

/-- `s` with an instruction's bytes stored at `eip`, as far as memory goes, and RUNNING, so that the next step fetches
them (log entry 3). -/
def State.withFetchWord (s : State) (nbits w : Nat) : State :=
  (s.setMem (s.mem.storeBytes s.eip (tableWordBytes nbits w))).setStatus .running

end Sys2Proof.Machine
end

