-- ==== Sys2Proof/Machine/Ports.lean ====
section
/-! DEFINITION. The ports of the six blocks and of memory, as functions from a port's inputs to its outputs
(10_state.md R20, 20_memory.md R38, 30_encoding.md R50, R57, R60, 40_execution_cycle.md R77). They carry the
contracts that the step uses and add no behaviour. An output to which its rule gives no value is absent
(log entry 9). -/

namespace Sys2Proof.Machine

/-! ### register_file_x86_32 (10_state.md R20) -/

/-- The inputs of the register file's ports, construction aside. -/
structure RegPortIn where
  raId : BitVec 3
  rbId : BitVec 3
  r8Id : BitVec 3
  wEn : Bool
  wId : BitVec 3
  wData : Word
  w8En : Bool
  w8Id : BitVec 3
  w8Data : Byte
  deriving DecidableEq, Repr

/-- The outputs of the register file's ports. -/
structure RegPortOut where
  raData : Word
  rbData : Word
  r8Data : Byte
  deriving DecidableEq, Repr

/-- The reads, combinational on the state at the start of the step. -/
def regPortRead (x : RegFile) (p : RegPortIn) : RegPortOut :=
  { raData := x.get32 (Reg32.ofId p.raId)
    rbData := x.get32 (Reg32.ofId p.rbId)
    r8Data := x.get8 p.r8Id }

/-- The write at commit. At most one enable is asserted; both together is a request no step makes (log entry 9), and the
32-bit write is then applied first. -/
def regPortCommit (x : RegFile) (p : RegPortIn) : RegFile :=
  let x := if p.wEn then x.set32 (Reg32.ofId p.wId) p.wData else x
  if p.w8En then x.set8 p.w8Id p.w8Data else x

/-! ### The memory port (20_memory.md R38) -/

/-- `m_size`: 1 or 4 bytes. -/
inductive AccessSize where
  | one
  | four
  deriving DecidableEq, Repr

/-- The inputs of the memory port. -/
structure MemPortIn where
  addr : Word
  size : AccessSize
  we : Bool
  wdata : Word
  deriving DecidableEq, Repr

/-- The outputs of the memory port. `rdata` is absent on a write and on an access out of bounds. -/
structure MemPortOut where
  rdata : Option Word
  oob : Bool
  deriving DecidableEq, Repr

/-- Whether the access has a byte outside [0, MEM_SIZE) (20_memory.md R33). -/
def memPortOob (m : Memory) (p : MemPortIn) : Bool :=
  match p.size with
  | .one => !m.inBounds p.addr
  | .four => !m.dwordInBounds p.addr

/-- The port's outputs. The rule gives a 1-byte read the 8 bits of `readByte`; that the upper 24 bits of `m_rdata` are
then 0 is the model's DESIGN CHOICE (log entry 9), unsafe for a statement about those bits. -/
def memPortRead (m : Memory) (p : MemPortIn) : MemPortOut :=
  { oob := memPortOob m p
    rdata :=
      if memPortOob m p || p.we then none
      else
        match p.size with
        | .one => some (zext32 (m.readByte p.addr))
        | .four => some (m.readDword p.addr) }

/-- The memory after the access: a write in bounds stores the low 8 or all 32 bits (20_memory.md R31, R32), and anything
else changes nothing. -/
def memPortCommit (m : Memory) (p : MemPortIn) : Memory :=
  if p.we && !memPortOob m p then
    match p.size with
    | .one => m.writeByte p.addr (byteOfDword p.wdata 0)
    | .four => m.writeDword p.addr p.wdata
  else m

/-! ### x86_decoder (30_encoding.md R50) -/

/-- The outputs of the x86_decoder. The rule gives `reg_in_opcode` a value for 0xB8 to 0xBF only; that it is absent for
every other opcode is the model's DESIGN CHOICE (log entry 9). -/
structure DecoderPortOut where
  kind : Option OpKind
  hasModRM : Bool
  immSize : Nat
  regInOpcode : Option (BitVec 3)
  err : Option ErrorKind
  deriving DecidableEq, Repr

/-- `modrmReg` is the `regOrOpcode` field where a ModRM byte is present. -/
def decoderPort (opcode : Byte) (modrmReg : Option (BitVec 3)) : DecoderPortOut :=
  let kind := dispatch opcode
  { kind := kind
    hasModRM := match kind with
      | some k => k.hasModRM
      | none => false
    immSize := match kind with
      | some k => k.immSize
      | none => 0
    regInOpcode := match kind with
      | some (.movR32Imm32 _) => some (opcode.extractLsb' 0 3)
      | _ => none
    err := match kind, modrmReg with
      | none, _ => some .unknownOpcode
      | some .group83, some g => if g = 5#3 then none else some .notImplemented
      | some .groupFF, some g => if g = 0#3 then none else some .notImplemented
      | some _, _ => none }

/-! ### modrm_decoder (30_encoding.md R57) -/

/-- The bytes at the ModRM address and the memory port's out-of-bounds marks for them. -/
structure ModRMPortIn where
  b0 : Byte
  b1 : Byte
  b2 : Byte
  b3 : Byte
  b4 : Byte
  b5 : Byte
  oob0 : Bool
  oob1 : Bool
  oob2 : Bool
  oob3 : Bool
  oob4 : Bool
  oob5 : Bool
  deriving DecidableEq, Repr

/-- `disp_kind`. -/
inductive DispKind where
  | none
  | disp8
  | disp32
  deriving DecidableEq, Repr

/-- The outputs of the modrm_decoder; `has_sib` and `sib` are one optional byte, and `disp` is absent with
`disp_kind` None. -/
structure ModRMPortOut where
  mod : BitVec 2
  regOrOpcode : BitVec 3
  rm : BitVec 3
  sib : Option Byte
  dispKind : DispKind
  disp : Option Word
  len : BitVec 3
  err : Option ErrorKind
  deriving DecidableEq, Repr

/-- Whether one of the first `n` bytes is out of bounds. -/
def ModRMPortIn.oobWithin (p : ModRMPortIn) (n : Nat) : Bool :=
  ([p.oob0, p.oob1, p.oob2, p.oob3, p.oob4, p.oob5].take n).any id

/-- The modrm_decoder's port, by the table of 30_encoding.md R54. -/
def modrmPort (p : ModRMPortIn) : ModRMPortOut :=
  let mod := p.b0.extractLsb' 6 2
  let rm := p.b0.extractLsb' 0 3
  let hasSib := decide (mod ≠ 3#2 ∧ rm = 4#3)
  let kind : DispKind :=
    if mod = 2#2 ∨ mod = 0#2 ∧ rm = 5#3 then .disp32 else if mod = 1#2 then .disp8 else .none
  let len : Nat := match hasSib, kind with
    | false, .none => 1
    | false, .disp8 => 2
    | false, .disp32 => 5
    | true, .none => 2
    | true, .disp8 => 3
    | true, .disp32 => 6
  { mod := mod
    regOrOpcode := p.b0.extractLsb' 3 3
    rm := rm
    sib := if hasSib then some p.b1 else none
    dispKind := kind
    disp := match hasSib, kind with
      | _, .none => none
      | false, .disp8 => some (sext32 p.b1)
      | true, .disp8 => some (sext32 p.b2)
      | false, .disp32 => some (dwordOfBytes p.b1 p.b2 p.b3 p.b4)
      | true, .disp32 => some (dwordOfBytes p.b2 p.b3 p.b4 p.b5)
    len := BitVec.ofNat 3 len
    err := if p.oobWithin len then some .outOfBounds else none }

/-! ### effective_address_calculator (30_encoding.md R60) -/

/-- The outputs of the effective_address_calculator: `loc_kind`, `loc_reg` and `loc_addr` are the location, absent with
`err`. -/
structure EacPortOut where
  loc : Option Loc
  err : Option ErrorKind
  deriving DecidableEq, Repr

/-- `baseData` is the register file's `ra_data` with `ra_id` = `rm`; the displacement comes sign-extended. -/
def eacPort (mod : BitVec 2) (rm : BitVec 3) (dispKind : DispKind) (disp baseData : Word) : EacPortOut :=
  let d : Disp := match dispKind with
    | .none => .none
    | .disp8 => .disp32 disp
    | .disp32 => .disp32 disp
  match effectiveAddress mod rm d baseData with
  | .ok loc => { loc := some loc, err := none }
  | .error k => { loc := none, err := some k }

/-! ### instruction_dispatch_alu (40_execution_cycle.md R77) -/

/-- The outputs of the ALU: the result value, which the jumps do not have, and the new `eip`. -/
structure AluPortOut where
  y : Option Word
  eipNew : Word
  deriving DecidableEq, Repr

/-- `a` is the `rm` operand's value, `b` the register operand's or the immediate, already extended; `next` is the
address after the instruction. -/
def aluPort (kind : OpKind) (a b next : Word) : AluPortOut :=
  match kind with
  | .movR32Imm32 _ => { y := some (alu (.pass b)), eipNew := next }
  | .movRm32R32 => { y := some (alu (.pass b)), eipNew := next }
  | .movR32Rm32 => { y := some (alu (.pass b)), eipNew := next }
  | .movRm32Imm32 => { y := some (alu (.pass b)), eipNew := next }
  | .addRm32R32 => { y := some (alu (.add a b)), eipNew := next }
  | .group83 => { y := some (alu (.sub a b)), eipNew := next }
  | .groupFF => { y := some (alu (.inc a)), eipNew := next }
  | .jmpRel32 => { y := none, eipNew := jumpTarget next b }
  | .jmpRel8 => { y := none, eipNew := jumpTarget next b }

end Sys2Proof.Machine
end

