-- ==== Sys2Proof/Machine/HostInterface.lean ====
section
/-! DEFINITION. What the host may do to the CORE besides stepping it (70_reset_and_hazards.md R113): construct it, load
an image, and inspect the register snapshot. -/

namespace Sys2Proof.Machine

/-- Construction with a MEM_SIZE in its domain (00_scope.md R7, 70_reset_and_hazards.md R109); a MEM_SIZE outside it is
refused (log entry 10). -/
def hostConstruct (memSize : Nat) (initEip initEsp : Word) (eflags : BitVec 32) : Answer :=
  if 1 ≤ memSize ∧ memSize ≤ 2 ^ 32 then .next (State.construct memSize initEip initEsp eflags)
  else .refused .memSizeOutsideDomain

/-- Image loading: the bytes are copied from the offset upward (70_reset_and_hazards.md R111). An image that does not
lie inside [0, MEM_SIZE) breaks the host's duty and is refused. An empty image at an offset above MEM_SIZE, of which the
spec says nothing, is refused too: the model's DESIGN CHOICE (log entry 10), safe. -/
def hostLoadImage (offset : Nat) (image : List Byte) (s : State) : Answer :=
  if offset + image.length ≤ s.mem.capacity then
    .next (s.setMem (s.mem.storeBytes (BitVec.ofNat 32 offset) image))
  else .refused .imageOutsideMemory

/-- The register snapshot (`dumpRegisters`): EAX, ECX, EDX, EBX, ESP, EBP, ESI, EDI, EIP, in that order
(10_state.md R29). -/
def snapshot (s : State) : List Word :=
  [s.regs.get32 .eax, s.regs.get32 .ecx, s.regs.get32 .edx, s.regs.get32 .ebx,
   s.regs.get32 .esp, s.regs.get32 .ebp, s.regs.get32 .esi, s.regs.get32 .edi, s.eip]

end Sys2Proof.Machine
end

