-- ==== Sys2Proof/Safety.lean ====
section
/-! DEFINITION. The terms claims are made in: the invariant of the state, the two normal ends of a run and the error
end (40_execution_cycle.md R75, R76), what an instruction leaves alone, and an instruction read off memory by address,
independently of the decoder. -/

namespace Sys2Proof.Machine

/-- No step leaves the state (40_execution_cycle.md R75). -/
abbrev State.Terminal (s : State) : Prop := s.status ≠ .running

/-- A normal end of a run: HALTED_SENTINEL or HALTED_RANGE (40_execution_cycle.md R76). -/
abbrev State.NormalEnd (s : State) : Prop := s.status = .haltedSentinel ∨ s.status = .haltedRange

/-- The state with an error raised in it: FAULTED with its own `eip` and `op`, all else as before
(60_exceptions.md R96). -/
abbrev State.faultedWith (s : State) (kind : ErrorKind) (op : Byte) : State :=
  { s with status := .faulted kind s.eip op }

/-- An error of this kind stopped the CORE (10_state.md R26). -/
abbrev State.Raised (s : State) (kind : ErrorKind) : Prop :=
  ∃ faultEip opcode, s.status = .faulted kind faultEip opcode

/-- What `status` says of the rest of the state: HALTED_RANGE stands at an `eip` outside memory (40_execution_cycle.md
R66), HALTED_SENTINEL at `eip` = 0 (R71), FAULTED at the faulting instruction, whose opcode byte it reports
(60_exceptions.md R96) and which is unmapped exactly when the kind is UnknownOpcode (R92). -/
def State.StatusCoherent (s : State) : Prop :=
  match s.status with
  | .running => True
  | .haltedRange => s.mem.capacity ≤ s.eip.toNat
  | .haltedSentinel => s.eip = 0#32
  | .faulted kind faultEip opcode =>
    faultEip = s.eip ∧ s.eip.toNat < s.mem.capacity ∧ opcode = s.mem.readByte s.eip ∧
      (kind = .unknownOpcode ↔ dispatch opcode = none)

/-- The invariant of the machine: the memory is in canonical form with MEM_SIZE in its domain, and `status` agrees with
the rest of the state. -/
def State.Inv (s : State) : Prop := s.mem.wf ∧ s.StatusCoherent

/-- Every byte of a 4-byte access at `a` is inside memory (20_memory.md R33). -/
abbrev State.DwordInside (s : State) (a : Word) : Prop :=
  ∀ k : Nat, k < 4 → (a + BitVec.ofNat 32 k).toNat < s.mem.capacity

/-- `b` is one of the four byte addresses of a 4-byte access at `a` (20_memory.md R32). -/
abbrev DwordCovers (a b : Word) : Prop := ∃ k : Nat, k < 4 ∧ b = a + BitVec.ofNat 32 k

/-- What every instruction leaves alone: MEM_SIZE, EFLAGS, and `status` unless it raises an error at its own
address. -/
structure CommonFrame (s t : State) : Prop where
  capacity : t.mem.capacity = s.mem.capacity
  eflags : t.eflags = s.eflags
  status : t.status = s.status ∨ ∃ kind op, t.status = .faulted kind s.eip op

/-- The frame of a form that writes register `dest` and stores nothing. -/
structure RegisterFrame (s t : State) (dest : Reg32) : Prop extends CommonFrame s t where
  regs : ∀ q, q ≠ dest → t.regs.get32 q = s.regs.get32 q
  bytes : ∀ b, t.mem.readByte b = s.mem.readByte b

/-- The frame of a form that stores a dword at `a` and writes no register. -/
structure StoreFrame (s t : State) (a : Word) : Prop extends CommonFrame s t where
  regs : ∀ q, t.regs.get32 q = s.regs.get32 q
  bytes : ∀ b, ¬DwordCovers a b → t.mem.readByte b = s.mem.readByte b

/-- After a store of `v` at `a`, the next fetch of `t` sees it (20_memory.md R43): of the bytes from `eip` upward, as far
as an instruction and memory go, each one at an address of the store is the byte stored there, and each other one is what
memory held before. -/
def NextFetchSees (s t : State) (a v : Word) : Prop :=
  ∀ k : Nat, k < maxInstrBytes →
    (∀ n : Nat, n ≤ k → (t.eip + BitVec.ofNat 32 n).toNat < t.mem.capacity) →
    (∀ j : Nat, j < 4 → t.eip + BitVec.ofNat 32 k = a + BitVec.ofNat 32 j →
      (fetchBytes t)[k]? = some (v.extractLsb' (8 * j) 8)) ∧
    (¬DwordCovers a (t.eip + BitVec.ofNat 32 k) →
      (fetchBytes t)[k]? = some (s.mem.readByte (t.eip + BitVec.ofNat 32 k)))

/-- The frame of a form that writes no register and stores nothing. -/
structure JumpFrame (s t : State) : Prop extends CommonFrame s t where
  regs : ∀ q, t.regs.get32 q = s.regs.get32 q
  bytes : ∀ b, t.mem.readByte b = s.mem.readByte b

/-! ### An instruction in memory, by address -/

/-- Byte `k` from `eip` upward, addresses modulo 2^32 (10_state.md R21). -/
def State.instrByte (s : State) (k : Nat) : Byte := s.mem.readByte (s.eip + BitVec.ofNat 32 k)

/-- The `n` bytes from `eip` upward are inside memory. -/
abbrev State.InstrInside (s : State) (n : Nat) : Prop :=
  ∀ k : Nat, k < n → (s.eip + BitVec.ofNat 32 k).toNat < s.mem.capacity

/-- `mod` of a ModRM byte (30_encoding.md R51). -/
def modOf (b : Byte) : BitVec 2 := b.extractLsb' 6 2

/-- `regOrOpcode` of a ModRM byte (30_encoding.md R51). -/
def regOf (b : Byte) : BitVec 3 := b.extractLsb' 3 3

/-- `rm` of a ModRM byte (30_encoding.md R51). -/
def rmOf (b : Byte) : BitVec 3 := b.extractLsb' 0 3

/-- A ModRM byte of the SIB form (30_encoding.md R59). -/
abbrev SibForm (b : Byte) : Prop := modOf b ≠ 3#2 ∧ rmOf b = 4#3

/-- A ModRM byte whose operand is in memory (30_encoding.md R54). -/
abbrev MemoryForm (b : Byte) : Prop := modOf b ≠ 3#2 ∧ rmOf b ≠ 4#3

/-- M by the ModRM byte, the column of the table of 30_encoding.md R54. -/
def groupLength (b : Byte) : Nat :=
  match (modOf b).toNat, (rmOf b).toNat with
  | 0, 4 => 2
  | 0, 5 => 5
  | 0, _ => 1
  | 1, 4 => 3
  | 1, _ => 2
  | 2, 4 => 6
  | 2, _ => 5
  | _, _ => 1

/-- The address column of the table of 30_encoding.md R54 for a memory form whose ModRM byte is at `eip` + 1 and whose
displacement, if any, is at `eip` + 2. -/
def State.dataAddress (s : State) : Word :=
  let b := s.instrByte 1
  let base := s.regs.get32 (Reg32.ofId (rmOf b))
  let disp8 := sext32 (s.instrByte 2)
  let disp32 := s.mem.readDword (s.eip + 2#32)
  match (modOf b).toNat, (rmOf b).toNat with
  | 0, 5 => disp32
  | 0, _ => base
  | 1, _ => base + disp8
  | _, _ => base + disp32

/-- The sub-opcode check of the two groups fails (30_encoding.md R49). -/
abbrev SubOpcodeUnlisted (kind : OpKind) (b : Byte) : Prop :=
  kind = .group83 ∧ regOf b ≠ 5#3 ∨ kind = .groupFF ∧ regOf b ≠ 0#3

end Sys2Proof.Machine
end

