-- ==== Sys2Proof/Certificates/Slice0/Obligations.lean ====
section
/-! DEFINITION. The statements for the provers. D<n> in a docstring: that part follows a choice which the spec marks as
its own (92_eei_decisions.md), not the words of the source. -/

open Sys2Proof Sys2Proof.Machine

/-! ### Construction and the invariant -/

/-- R27: the value every piece of state has after construction, for any arguments. The spec leaves EFLAGS unspecified
there, and nothing is said of it. RUNNING is D11. -/
def Obligations.ConstructionGivesResetValues : Prop :=
  ∀ (memSize : Nat) (initEip initEsp : Word) (eflags : BitVec 32),
    let s := State.construct memSize initEip initEsp eflags
    s.regs.get32 .eax = 0#32 ∧ s.regs.get32 .ecx = 0#32 ∧ s.regs.get32 .edx = 0#32 ∧ s.regs.get32 .ebx = 0#32 ∧
      s.regs.get32 .esp = initEsp ∧
      s.regs.get32 .ebp = 0#32 ∧ s.regs.get32 .esi = 0#32 ∧ s.regs.get32 .edi = 0#32 ∧
      s.eip = initEip ∧ s.mem.capacity = memSize ∧ (∀ a, s.mem.readByte a = 0#8) ∧ s.status = .running

/-- Construction with MEM_SIZE in its domain (R7) meets the invariant, and so does State.reset, whose arguments are the
model's choice (log entries 1 and 2). -/
def Obligations.ConstructionMeetsTheInvariant : Prop :=
  (∀ (memSize : Nat) (initEip initEsp : Word) (eflags : BitVec 32), 1 ≤ memSize → memSize ≤ 2 ^ 32 →
    (State.construct memSize initEip initEsp eflags).Inv) ∧ State.reset.Inv

/-- Every step keeps the invariant: the memory stays in canonical form with MEM_SIZE in its domain, a range halt stands
outside memory (R66; D10), a sentinel halt at 0 (R71; D10), and a FAULTED status reports the instruction it stands at (R96;
D8, D12), whose opcode is unmapped exactly for UnknownOpcode (R92). -/
def Obligations.EveryStepKeepsTheInvariant : Prop :=
  ∀ s t : State, s.Inv → step s = .next t → t.Inv

/-- MEM_SIZE is fixed: no step changes it (R30). -/
def Obligations.StepKeepsTheCapacity : Prop :=
  ∀ s t : State, step s = .next t → t.mem.capacity = s.mem.capacity

/-! ### The register file -/

/-- R16, with R13 and R14: a register write replaces all of its slot and no other, whichever register it is. -/
def Obligations.Set32ReplacesExactlyItsSlot : Prop :=
  ∀ (x : RegFile) (r q : Reg32) (v : Word),
    (x.set32 r v).get32 r = v ∧ (q ≠ r → (x.set32 r v).get32 q = x.get32 q)

/-- R17: ids 0..3 read bits [7:0] of slot id, ids 4..7 bits [15:8] of slot id - 4. -/
def Obligations.Get8ReadsItsAliasByte : Prop :=
  ∀ (x : RegFile) (id : BitVec 3),
    (id.toNat < 4 → (x.get8 id).toNat = (x.get32 (Reg32.ofId id)).toNat % 256) ∧
      (4 ≤ id.toNat → (x.get8 id).toNat = (x.get32 (Reg32.ofId (id - 4#3))).toNat / 256 % 256)

/-- R18: a write of an 8-bit alias puts the byte in its place and preserves the other 24 bits of the owning register
and every other register. -/
def Obligations.Set8PreservesTheOtherBits : Prop :=
  ∀ (x : RegFile) (id : BitVec 3) (v : Byte),
    let owner := if id.toNat < 4 then Reg32.ofId id else Reg32.ofId (id - 4#3)
    let low := if id.toNat < 4 then 0 else 8
    (∀ j : Nat, j < 32 → ((x.set8 id v).get32 owner).getLsbD j =
      if low ≤ j ∧ j < low + 8 then v.getLsbD (j - low) else (x.get32 owner).getLsbD j) ∧
      (∀ q, q ≠ owner → (x.set8 id v).get32 q = x.get32 q) ∧ (x.set8 id v).get8 id = v

/-- R19, its first sentence: no byte of ESP, EBP, ESI or EDI is read or written through the 8-bit alias space (D24). -/
def Obligations.AliasesNeverReachTheUpperSlots : Prop :=
  (∀ (x : RegFile) (id : BitVec 3) (v : Byte) (q : Reg32), q ∈ [Reg32.esp, .ebp, .esi, .edi] →
    (x.set8 id v).get32 q = x.get32 q) ∧
  (∀ (x : RegFile) (id : BitVec 3) (q : Reg32) (w : Word), q ∈ [Reg32.esp, .ebp, .esi, .edi] →
    (x.set32 q w).get8 id = x.get8 id)

/-- R29: the snapshot is the nine values in their fixed order. -/
def Obligations.SnapshotIsTheNineValuesInOrder : Prop :=
  ∀ s : State, snapshot s =
    [s.regs.get32 .eax, s.regs.get32 .ecx, s.regs.get32 .edx, s.regs.get32 .ebx,
     s.regs.get32 .esp, s.regs.get32 .ebp, s.regs.get32 .esi, s.regs.get32 .edi, s.eip]

/-! ### Memory -/

/-- R36: a 1-byte read of `a + k` after a 4-byte write at `a` returns `v[8k+7:8k]`, and a 4-byte read returns the bytes
stored at its four addresses. Addresses are modulo 2^32 (D6). -/
def Obligations.MixedWidthAccessSeesTheByteArray : Prop :=
  (∀ (m : Memory) (a v : Word) (k : Nat), m.wf → k < 4 →
    (m.writeDword a v).readByte (a + BitVec.ofNat 32 k) = v.extractLsb' (8 * k) 8) ∧
  (∀ (m : Memory) (a : Word) (k : Nat), k < 4 →
    (m.readDword a).extractLsb' (8 * k) 8 = m.readByte (a + BitVec.ofNat 32 k))

/-- A write changes only the bytes it names (R39; D20), for both widths. -/
def Obligations.WriteChangesOnlyTheBytesItNames : Prop :=
  ∀ (m : Memory) (a : Word), m.wf →
    (∀ (v : Word) (b : Word), ¬DwordCovers a b → (m.writeDword a v).readByte b = m.readByte b) ∧
    (∀ (v : Byte) (b : Word), (m.writeByte a v).readByte b = if b = a then v else m.readByte b)

/-- Every byte of a read or a write is checked, and an access with a byte outside memory raises OutOfBounds (R33; D7). -/
def Obligations.EveryByteOfAnAccessIsChecked : Prop :=
  ∀ (s : State) (a v eipNew : Word),
    (a.toNat < s.mem.capacity → memRead1 s.mem a = .ok (s.mem.readByte a)) ∧
    (s.mem.capacity ≤ a.toNat → memRead1 s.mem a = .error .outOfBounds) ∧
    (s.DwordInside a → memRead4 s.mem a = .ok (s.mem.readDword a) ∧
      writeRM32 s (.memory a) v eipNew = .ok { regW := none, memW := some (a, v), eipNew := eipNew }) ∧
    (¬s.DwordInside a → memRead4 s.mem a = .error .outOfBounds ∧
      writeRM32 s (.memory a) v eipNew = .error .outOfBounds)

/-! ### Encoding -/

/-- R47: the dispatch table, row by row, with its ModRM and immediate columns; every other byte is unmapped, and sixteen
values are mapped. -/
def Obligations.DispatchFollowsTheTable : Prop :=
  (∀ r : BitVec 3, dispatch (0xB8#8 + r.zeroExtend 8) = some (.movR32Imm32 (Reg32.ofId r))) ∧
    dispatch 0x01#8 = some .addRm32R32 ∧ dispatch 0x83#8 = some .group83 ∧ dispatch 0x89#8 = some .movRm32R32 ∧
    dispatch 0x8B#8 = some .movR32Rm32 ∧ dispatch 0xC7#8 = some .movRm32Imm32 ∧ dispatch 0xFF#8 = some .groupFF ∧
    dispatch 0xE9#8 = some .jmpRel32 ∧ dispatch 0xEB#8 = some .jmpRel8 ∧
    (∀ op : Byte, (op < 0xB8#8 ∨ 0xBF#8 < op) → op ∉ [0x01#8, 0x83, 0x89, 0x8B, 0xC7, 0xFF, 0xE9, 0xEB] →
      dispatch op = none) ∧
    ((List.range 256).filter fun n => (dispatch (BitVec.ofNat 8 n)).isSome).length = 16 ∧
    (∀ kind : OpKind, kind.hasModRM = true ↔
      kind ∈ [OpKind.addRm32R32, .group83, .movRm32R32, .movR32Rm32, .movRm32Imm32, .groupFF]) ∧
    (∀ r : Reg32, (OpKind.movR32Imm32 r).immSize = 4) ∧ OpKind.addRm32R32.immSize = 0 ∧ OpKind.group83.immSize = 1 ∧
    OpKind.movRm32R32.immSize = 0 ∧ OpKind.movR32Rm32.immSize = 0 ∧ OpKind.movRm32Imm32.immSize = 4 ∧
    OpKind.groupFF.immSize = 0 ∧ OpKind.jmpRel32.immSize = 4 ∧ OpKind.jmpRel8.immSize = 1

/-- R48: a running CORE that fetches one of the other 240 opcode bytes raises UnknownOpcode, whatever lies beyond the
byte, inside memory or not. -/
def Obligations.UnmappedOpcodeRaisesUnknownOpcode : Prop :=
  ∀ s : State, s.status = .running → s.eip.toNat < s.mem.capacity →
    (s.mem.readByte s.eip < 0xB8#8 ∨ 0xBF#8 < s.mem.readByte s.eip) →
    s.mem.readByte s.eip ∉ [0x01#8, 0x83, 0x89, 0x8B, 0xC7, 0xFF, 0xE9, 0xEB] →
    ∃ t, step s = .next t ∧ t.Raised .unknownOpcode

/-- R49: an instruction 0x83, immediate included, with a sub-opcode other than 5, and an instruction 0xFF with one other
than 0, raise NotImplemented. (Where the immediate of 0x83 is not inside memory, TheFirstErrorInOrderIsRaised says which
error it is.) -/
def Obligations.UnlistedSubOpcodeRaisesNotImplemented : Prop :=
  ∀ (s : State) (d : ModRM) (imm : Byte) (rest : List Byte), s.status = .running → d.wf = true →
    (fetchBytes s = 0x83#8 :: (encodeModRM d ++ imm :: rest) → d.regOrOpcode ≠ 5#3 →
      ∃ t, step s = .next t ∧ t.Raised .notImplemented) ∧
    (fetchBytes s = 0xFF#8 :: (encodeModRM d ++ rest) → d.regOrOpcode ≠ 0#3 →
      ∃ t, step s = .next t ∧ t.Raised .notImplemented)

/-- Decoding the encoding of a well-formed instruction gives it back, with whatever follows it. -/
def Obligations.DecodeGivesBackWhatWasEncoded : Prop :=
  ∀ (i : Instr) (rest : List Byte), i.wf = true → decode (encode i ++ rest) = .ok (i, rest)

/-- Whatever decodes is well-formed and is the encoding of what it decodes to: every byte the decoder consumes is
accounted for. -/
def Obligations.DecodeReadsOnlyEncodings : Prop :=
  ∀ (bs rest : List Byte) (i : Instr), decode bs = .ok (i, rest) → i.wf = true ∧ bs = encode i ++ rest

/-- R54: for each class of (mod, rm), whether a SIB byte is read, the displacement, M (the bytes consumed) and the operand
location. A SIB form with mod = 0 has no displacement (D23). -/
def Obligations.ModRMGroupFollowsTheTable : Prop :=
  ∀ (bs rest : List Byte) (d : ModRM) (x : RegFile), takeModRM bs = .ok (d, rest) →
    (d.mod = 0#2 → d.rm ≠ 4#3 → d.rm ≠ 5#3 → d.sib = none ∧ d.disp = .none ∧ bs.length = rest.length + 1 ∧
      resolve x d = .ok (.memory (x.get32 (Reg32.ofId d.rm)))) ∧
    (d.mod = 0#2 → d.rm = 4#3 → d.sib.isSome ∧ d.disp = .none ∧ bs.length = rest.length + 2 ∧
      resolve x d = .error .notImplemented) ∧
    (d.mod = 0#2 → d.rm = 5#3 → d.sib = none ∧ (∃ v, d.disp = .disp32 v ∧ resolve x d = .ok (.memory v)) ∧
      bs.length = rest.length + 5) ∧
    (d.mod = 1#2 → d.rm ≠ 4#3 → d.sib = none ∧
      (∃ v, d.disp = .disp8 v ∧ resolve x d = .ok (.memory (x.get32 (Reg32.ofId d.rm) + sext32 v))) ∧
      bs.length = rest.length + 2) ∧
    (d.mod = 1#2 → d.rm = 4#3 → d.sib.isSome ∧ (∃ v, d.disp = .disp8 v) ∧ bs.length = rest.length + 3 ∧
      resolve x d = .error .notImplemented) ∧
    (d.mod = 2#2 → d.rm ≠ 4#3 → d.sib = none ∧
      (∃ v, d.disp = .disp32 v ∧ resolve x d = .ok (.memory (x.get32 (Reg32.ofId d.rm) + v))) ∧
      bs.length = rest.length + 5) ∧
    (d.mod = 2#2 → d.rm = 4#3 → d.sib.isSome ∧ (∃ v, d.disp = .disp32 v) ∧ bs.length = rest.length + 6 ∧
      resolve x d = .error .notImplemented) ∧
    (d.mod = 3#2 → d.sib = none ∧ d.disp = .none ∧ bs.length = rest.length + 1 ∧
      resolve x d = .ok (.register (Reg32.ofId d.rm)))

/-- Words written out from the spec's encodings, one per form, decode to what they stand for. -/
def Obligations.SpecWordsDecode : Prop :=
  decode [0xB8, 0x01, 0x00, 0x00, 0x00] = .ok (.movR32Imm32 .eax 1, []) ∧
    decode [0x01, 0xC8] = .ok (.addRm32R32 ⟨3, 1, 0, none, .none⟩, []) ∧
    decode [0x83, 0x6B, 0x04, 0x01] = .ok (.subRm32Imm8 ⟨1, 5, 3, none, .disp8 4⟩ 1, []) ∧
    decode [0xC7, 0x05, 0x00, 0x10, 0x00, 0x00, 0x78, 0x56, 0x34, 0x12] =
      .ok (.movRm32Imm32 ⟨0, 0, 5, none, .disp32 0x1000⟩ 0x12345678, []) ∧
    decode [0xEB, 0xFE] = .ok (.jmpRel8 0xFE, [])

/-- The bytes an instruction consumes are its length, which is the x86_decoder's
`1 + (has_modrm ? M : 0) + imm_size` (R46, R50), M being the R54 value of its ModRM byte. -/
def Obligations.ConsumedBytesAreTheLength : Prop :=
  ∀ (op b : Byte) (bs rest : List Byte) (i : Instr), decode (op :: b :: bs) = .ok (i, rest) →
    (op :: b :: bs).length = rest.length + i.length ∧
      i.length = 1 + (if (decoderPort op none).hasModRM then groupLength b else 0) + (decoderPort op none).immSize

/-- R58: Resolve, case by case, on any descriptor and register values; the sum is modulo 2^32 (D6, log entry 13) and no
address is checked. -/
def Obligations.ResolveFollowsItsCases : Prop :=
  ∀ (x : RegFile) (d : ModRM),
    (d.mod = 3#2 → resolve x d = .ok (.register (Reg32.ofId d.rm))) ∧
    (d.mod ≠ 3#2 → d.rm = 4#3 → resolve x d = .error .notImplemented) ∧
    (d.mod = 0#2 → d.rm = 5#3 → ∀ v, d.disp = .disp32 v → resolve x d = .ok (.memory v)) ∧
    (d.mod = 0#2 → d.rm ≠ 4#3 → d.rm ≠ 5#3 → resolve x d = .ok (.memory (x.get32 (Reg32.ofId d.rm)))) ∧
    (d.mod = 1#2 → d.rm ≠ 4#3 → ∀ v, d.disp = .disp8 v → resolve x d =
      .ok (.memory (BitVec.ofInt 32 ((x.get32 (Reg32.ofId d.rm)).toNat + v.toInt)))) ∧
    (d.mod = 2#2 → d.rm ≠ 4#3 → ∀ v, d.disp = .disp32 v → resolve x d =
      .ok (.memory (BitVec.ofInt 32 ((x.get32 (Reg32.ofId d.rm)).toNat + v.toInt))))

/-- R59: a SIB byte is consumed and kept, whatever it is; every SIB form fails to resolve; and each of the six forms with
a ModRM byte raises NotImplemented on it. -/
def Obligations.SibFormsRaiseNotImplemented : Prop :=
  (∀ (b sib : Byte) (bs rest : List Byte) (d : ModRM), SibForm b → takeModRM (b :: sib :: bs) = .ok (d, rest) →
    d.mod ≠ 3#2 ∧ d.rm = 4#3 ∧ d.sib = some sib) ∧
  ∀ (d : ModRM) (s : State) (imm : Word) (imm8 : Byte), d.mod ≠ 3#2 → d.rm = 4#3 →
    resolve s.regs d = .error .notImplemented ∧
    (∃ t, exec (.addRm32R32 d) s = .next t ∧ t.Raised .notImplemented) ∧
    (∃ t, exec (.subRm32Imm8 d imm8) s = .next t ∧ t.Raised .notImplemented) ∧
    (∃ t, exec (.movRm32R32 d) s = .next t ∧ t.Raised .notImplemented) ∧
    (∃ t, exec (.movR32Rm32 d) s = .next t ∧ t.Raised .notImplemented) ∧
    (∃ t, exec (.movRm32Imm32 d imm) s = .next t ∧ t.Raised .notImplemented) ∧
    (∃ t, exec (.incRm32 d) s = .next t ∧ t.Raised .notImplemented)

/-! ### What each instruction does, in every operand form

Each statement gives the whole next state: the register form, the memory form inside memory, and the memory form that
is not, which raises OutOfBounds and changes nothing but `status` (D7, D8). Sums are modulo 2^32 (D6). The SIB form is
SibFormsRaiseNotImplemented. -/

/-- MOV r32, imm32 (R78): always completes. -/
def Obligations.MovR32Imm32WritesItsRegister : Prop :=
  ∀ (r : Reg32) (imm : Word) (s : State),
    exec (.movR32Imm32 r imm) s = .next { s with regs := s.regs.set32 r imm, eip := s.eip + 5#32 }

/-- MOV rm32, r32 (R79). -/
def Obligations.MovRm32R32MovesTheRegister : Prop :=
  ∀ (d : ModRM) (s : State),
    (d.wf = true → d.mod = 3#2 → exec (.movRm32R32 d) s = .next
      { s with regs := s.regs.set32 (Reg32.ofId d.rm) (s.regs.get32 (Reg32.ofId d.regOrOpcode)), eip := s.eip + 2#32 }) ∧
    (∀ a, resolve s.regs d = .ok (.memory a) →
      (s.DwordInside a → exec (.movRm32R32 d) s = .next
        { s with
          mem := s.mem.writeDword a (s.regs.get32 (Reg32.ofId d.regOrOpcode))
          eip := s.eip + BitVec.ofNat 32 (1 + d.length) }) ∧
      (¬s.DwordInside a → exec (.movRm32R32 d) s = .next (s.faultedWith .outOfBounds 0x89#8)))

/-- MOV r32, rm32 (R80). The address comes from the register values before the load. -/
def Obligations.MovR32Rm32LoadsTheRegister : Prop :=
  ∀ (d : ModRM) (s : State),
    (d.wf = true → d.mod = 3#2 → exec (.movR32Rm32 d) s = .next
      { s with regs := s.regs.set32 (Reg32.ofId d.regOrOpcode) (s.regs.get32 (Reg32.ofId d.rm)), eip := s.eip + 2#32 }) ∧
    (∀ a, resolve s.regs d = .ok (.memory a) →
      (s.DwordInside a → exec (.movR32Rm32 d) s = .next
        { s with
          regs := s.regs.set32 (Reg32.ofId d.regOrOpcode) (s.mem.readDword a)
          eip := s.eip + BitVec.ofNat 32 (1 + d.length) }) ∧
      (¬s.DwordInside a → exec (.movR32Rm32 d) s = .next (s.faultedWith .outOfBounds 0x8B#8)))

/-- MOV rm32, imm32 (R81), whatever the `regOrOpcode` field (R62; D14, log entry 6). -/
def Obligations.MovRm32Imm32MovesTheImmediate : Prop :=
  ∀ (d : ModRM) (imm : Word) (s : State),
    (d.wf = true → d.mod = 3#2 → exec (.movRm32Imm32 d imm) s = .next
      { s with regs := s.regs.set32 (Reg32.ofId d.rm) imm, eip := s.eip + 6#32 }) ∧
    (∀ a, resolve s.regs d = .ok (.memory a) →
      (s.DwordInside a → exec (.movRm32Imm32 d imm) s = .next
        { s with mem := s.mem.writeDword a imm, eip := s.eip + BitVec.ofNat 32 (1 + d.length + 4) }) ∧
      (¬s.DwordInside a → exec (.movRm32Imm32 d imm) s = .next (s.faultedWith .outOfBounds 0xC7#8)))

/-- ADD rm32, r32 (R82): the sum is modulo 2^32, and both operands are read before the write. -/
def Obligations.AddRm32R32AddsModulo : Prop :=
  ∀ (d : ModRM) (s : State),
    (d.wf = true → d.mod = 3#2 → exec (.addRm32R32 d) s = .next
      { s with
        regs := s.regs.set32 (Reg32.ofId d.rm)
          (BitVec.ofNat 32 ((s.regs.get32 (Reg32.ofId d.rm)).toNat + (s.regs.get32 (Reg32.ofId d.regOrOpcode)).toNat))
        eip := s.eip + 2#32 }) ∧
    (∀ a, resolve s.regs d = .ok (.memory a) →
      (s.DwordInside a → exec (.addRm32R32 d) s = .next
        { s with
          mem := s.mem.writeDword a
            (BitVec.ofNat 32 ((s.mem.readDword a).toNat + (s.regs.get32 (Reg32.ofId d.regOrOpcode)).toNat))
          eip := s.eip + BitVec.ofNat 32 (1 + d.length) }) ∧
      (¬s.DwordInside a → exec (.addRm32R32 d) s = .next (s.faultedWith .outOfBounds 0x01#8)))

/-- SUB rm32, imm8 (R83): the difference with the sign-extended immediate, modulo 2^32. -/
def Obligations.SubRm32Imm8SubtractsTheSignedByte : Prop :=
  ∀ (d : ModRM) (imm : Byte) (s : State),
    (d.wf = true → d.mod = 3#2 → exec (.subRm32Imm8 d imm) s = .next
      { s with
        regs := s.regs.set32 (Reg32.ofId d.rm)
          (BitVec.ofInt 32 ((s.regs.get32 (Reg32.ofId d.rm)).toNat - imm.toInt))
        eip := s.eip + 3#32 }) ∧
    (∀ a, resolve s.regs d = .ok (.memory a) →
      (s.DwordInside a → exec (.subRm32Imm8 d imm) s = .next
        { s with
          mem := s.mem.writeDword a (BitVec.ofInt 32 ((s.mem.readDword a).toNat - imm.toInt))
          eip := s.eip + BitVec.ofNat 32 (1 + d.length + 1) }) ∧
      (¬s.DwordInside a → exec (.subRm32Imm8 d imm) s = .next (s.faultedWith .outOfBounds 0x83#8)))

/-- INC rm32 (R84): one more, modulo 2^32. -/
def Obligations.IncRm32AddsOne : Prop :=
  ∀ (d : ModRM) (s : State),
    (d.wf = true → d.mod = 3#2 → exec (.incRm32 d) s = .next
      { s with
        regs := s.regs.set32 (Reg32.ofId d.rm) (BitVec.ofNat 32 ((s.regs.get32 (Reg32.ofId d.rm)).toNat + 1))
        eip := s.eip + 2#32 }) ∧
    (∀ a, resolve s.regs d = .ok (.memory a) →
      (s.DwordInside a → exec (.incRm32 d) s = .next
        { s with
          mem := s.mem.writeDword a (BitVec.ofNat 32 ((s.mem.readDword a).toNat + 1))
          eip := s.eip + BitVec.ofNat 32 (1 + d.length) }) ∧
      (¬s.DwordInside a → exec (.incRm32 d) s = .next (s.faultedWith .outOfBounds 0xFF#8)))

/-- JMP rel32 and JMP rel8 (R87, R88): always complete; the target is the address after the instruction plus the signed
offset, modulo 2^32 (D6), and nothing else changes. -/
def Obligations.JumpsMoveOnlyEip : Prop :=
  (∀ (rel : Word) (s : State),
    exec (.jmpRel32 rel) s = .next { s with eip := BitVec.ofInt 32 (s.eip.toNat + 5 + rel.toInt) }) ∧
  (∀ (rel : Byte) (s : State),
    exec (.jmpRel8 rel) s = .next { s with eip := BitVec.ofInt 32 (s.eip.toNat + 2 + rel.toInt) })

/-- R86, in a step: a jump to a target that is not 0 goes on there, the target being checked only at the next fetch, where
one at or above MEM_SIZE halts the CORE; a jump to 0 halts it after the jump (D10). -/
def Obligations.JumpTargetsAreCheckedAtTheNextFetch : Prop :=
  ∀ (s : State) (target : Word), s.status = .running →
    ((∃ (rel : Word) (rest : List Byte), fetchBytes s = 0xE9#8 :: (dwordBytes rel ++ rest) ∧ target = s.eip + 5#32 + rel) ∨
      (∃ (rel : Byte) (rest : List Byte), fetchBytes s = 0xEB#8 :: rel :: rest ∧ target = s.eip + 2#32 + sext32 rel)) →
    (target = 0#32 → step s = .next { s with eip := target, status := .haltedSentinel }) ∧
    (target ≠ 0#32 → step s = .next { s with eip := target } ∧
      (s.mem.capacity ≤ target.toNat →
        step { s with eip := target } = .next { s with eip := target, status := .haltedRange }))

/-- Every instruction, in any state, answers a next state: none is privileged, faults the model or is refused
(R102, R96). -/
def Obligations.EveryInstructionAnswersANextState : Prop :=
  ∀ (i : Instr) (s : State), ∃ t, exec i s = .next t

/-! ### Frames -/

/-- The frame of the forms that write a register: MOV r32, imm32; MOV r32, rm32 in every form; and the register forms
(mod = 3) of MOV rm32, r32, MOV rm32, imm32, ADD, SUB and INC. No byte of memory changes. Where the form raises an error
(R96), that nothing but `status` changes is D8 and that the report is at this `eip` is D12 (log entry 13). -/
def Obligations.RegisterDestinationFrame : Prop :=
  ∀ (s t : State) (d : ModRM) (r : Reg32) (imm : Word) (imm8 : Byte),
    (exec (.movR32Imm32 r imm) s = .next t → RegisterFrame s t r) ∧
    (exec (.movR32Rm32 d) s = .next t → RegisterFrame s t (Reg32.ofId d.regOrOpcode)) ∧
    (d.mod = 3#2 →
      (exec (.movRm32R32 d) s = .next t → RegisterFrame s t (Reg32.ofId d.rm)) ∧
      (exec (.movRm32Imm32 d imm) s = .next t → RegisterFrame s t (Reg32.ofId d.rm)) ∧
      (exec (.addRm32R32 d) s = .next t → RegisterFrame s t (Reg32.ofId d.rm)) ∧
      (exec (.subRm32Imm8 d imm8) s = .next t → RegisterFrame s t (Reg32.ofId d.rm)) ∧
      (exec (.incRm32 d) s = .next t → RegisterFrame s t (Reg32.ofId d.rm)))

/-- The frame of the forms that store: MOV rm32, r32, MOV rm32, imm32, ADD, SUB and INC with a memory operand. The
address is the operand's, on the registers before the instruction; no register changes. The four addresses stored to are
modulo 2^32 by D6; where the form raises an error (R96), that nothing but `status` changes is D8 and that the report is at
this `eip` is D12 (log entry 13). -/
def Obligations.MemoryDestinationFrame : Prop :=
  ∀ (s t : State) (d : ModRM) (imm : Word) (imm8 : Byte) (a : Word), s.mem.wf →
    resolve s.regs d = .ok (.memory a) →
      (exec (.movRm32R32 d) s = .next t → StoreFrame s t a) ∧
      (exec (.movRm32Imm32 d imm) s = .next t → StoreFrame s t a) ∧
      (exec (.addRm32R32 d) s = .next t → StoreFrame s t a) ∧
      (exec (.subRm32Imm8 d imm8) s = .next t → StoreFrame s t a) ∧
      (exec (.incRm32 d) s = .next t → StoreFrame s t a)

/-- The frame of the jumps: no register and no byte of memory changes. -/
def Obligations.JumpsLeaveRegistersAndMemory : Prop :=
  ∀ (s t : State) (rel : Word) (rel8 : Byte),
    (exec (.jmpRel32 rel) s = .next t → JumpFrame s t) ∧ (exec (.jmpRel8 rel8) s = .next t → JumpFrame s t)

/-! ### The step -/

/-- A step of a running CORE whose bytes at `eip` decode to `i` is `exec i`, followed by the sentinel test (R65). -/
def Obligations.StepRunsTheDecodedInstruction : Prop :=
  ∀ (s : State) (i : Instr) (rest : List Byte), s.status = .running → decode (fetchBytes s) = .ok (i, rest) →
    step s = afterInstr (exec i s)

/-- A running CORE whose memory holds the encoding of a well-formed instruction at `eip`, every byte inside memory, runs
that instruction: fetch, decode and dispatch agree with the encoding, across the top of the address space too. -/
def Obligations.EncodedInstructionInMemoryRuns : Prop :=
  ∀ (s : State) (i : Instr), s.status = .running → i.wf = true → s.InstrInside i.length →
    (∀ k : Nat, k < i.length → (encode i)[k]? = some (s.instrByte k)) →
    step s = afterInstr (exec i s)

/-- R66: at a fetch with `eip` ≥ MEM_SIZE a running CORE becomes HALTED_RANGE, changes nothing else and executes no
instruction (D10). -/
def Obligations.RangeHaltBeforeTheFetch : Prop :=
  ∀ s : State, s.status = .running → s.mem.capacity ≤ s.eip.toNat → step s = .next { s with status := .haltedRange }

/-- R71: after a completed instruction that leaves `eip` at 0 the CORE is HALTED_SENTINEL, and after any other instruction
the step is what the instruction did; the test is made only after an instruction, so one at address 0 runs, and a range
halt makes none (D10, D15). -/
def Obligations.SentinelHaltAfterACompletedInstruction : Prop :=
  ∀ (s t : State) (i : Instr) (rest : List Byte), s.status = .running →
    (decode (fetchBytes s) = .ok (i, rest) → exec i s = .next t →
      (t.status = .running → t.eip = 0#32 → step s = .next { t with status := .haltedSentinel }) ∧
      (t.status = .running → t.eip ≠ 0#32 → step s = .next t) ∧
      (t.status ≠ .running → step s = .next t)) ∧
    (s.mem.capacity ≤ s.eip.toNat → step s = .next t → t.status = .haltedRange)

/-- R75: a state has a step exactly when its status is RUNNING (D11). -/
def Obligations.OnlyARunningStateHasAStep : Prop :=
  ∀ s : State, (s.status = .running ↔ ∃ t, step s = .next t)

/-- R96: a step that raises an error changes nothing but `status`, which carries the address of the instruction's opcode
byte and that byte; and the CORE then has no further step (D8, D11, D12). -/
def Obligations.ErrorChangesOnlyTheStatus : Prop :=
  ∀ (s t : State) (kind : ErrorKind) (faultEip : Word) (opcode : Byte), step s = .next t →
    t.status = .faulted kind faultEip opcode →
    faultEip = s.eip ∧ opcode = s.mem.readByte s.eip ∧ t = s.faultedWith kind (s.mem.readByte s.eip) ∧
      ∀ u, step t ≠ .next u

/-- R97: the errors in their order (D9, log entry 5), each condition read off memory by address: (1) an unmapped opcode; (2) a byte of the
ModRM group outside memory; (3) an unlisted sub-opcode; (4) a byte of the immediate or offset outside memory; (5) a SIB
form; (6) a byte of the data access outside memory. With none of them the step raises no error. -/
def Obligations.TheFirstErrorInOrderIsRaised : Prop :=
  ∀ s : State, s.status = .running → s.eip.toNat < s.mem.capacity →
    (dispatch (s.instrByte 0) = none → step s = .next (s.faultedWith .unknownOpcode (s.instrByte 0))) ∧
    ∀ kind : OpKind, dispatch (s.instrByte 0) = some kind →
      let b := s.instrByte 1
      let group := if kind.hasModRM then groupLength b else 0
      let whole := 1 + group + kind.immSize
      (¬s.InstrInside (1 + group) → step s = .next (s.faultedWith .outOfBounds (s.instrByte 0))) ∧
      (s.InstrInside (1 + group) → SubOpcodeUnlisted kind b →
        step s = .next (s.faultedWith .notImplemented (s.instrByte 0))) ∧
      (s.InstrInside (1 + group) → ¬SubOpcodeUnlisted kind b → ¬s.InstrInside whole →
        step s = .next (s.faultedWith .outOfBounds (s.instrByte 0))) ∧
      (s.InstrInside whole → ¬SubOpcodeUnlisted kind b → kind.hasModRM = true → SibForm b →
        step s = .next (s.faultedWith .notImplemented (s.instrByte 0))) ∧
      (s.InstrInside whole → ¬SubOpcodeUnlisted kind b → kind.hasModRM = true → MemoryForm b →
        ¬s.DwordInside s.dataAddress → step s = .next (s.faultedWith .outOfBounds (s.instrByte 0))) ∧
      (s.InstrInside whole → ¬SubOpcodeUnlisted kind b →
        (kind.hasModRM = true → ¬SibForm b ∧ (MemoryForm b → s.DwordInside s.dataAddress)) →
        ∃ t, step s = .next t ∧ (t.status = .running ∨ t.status = .haltedSentinel))

/-- Every instruction but the jumps, when the step raises no error, leaves `eip` at the address after it, the old `eip`
plus the bytes consumed (R72); the jumps set it to their target (R87, R88). The sums are modulo 2^32 (D6, log entry 13). -/
def Obligations.EipAdvancesByTheLength : Prop :=
  ∀ (s t : State) (i : Instr) (rest : List Byte), s.status = .running → decode (fetchBytes s) = .ok (i, rest) →
    step s = .next t → (∀ kind faultEip opcode, t.status ≠ .faulted kind faultEip opcode) →
    ((∀ rel, i ≠ .jmpRel32 rel) → (∀ rel, i ≠ .jmpRel8 rel) →
      t.eip = s.eip + BitVec.ofNat 32 ((fetchBytes s).length - rest.length)) ∧
    (∀ rel, i = .jmpRel32 rel → t.eip = s.eip + 5#32 + rel) ∧
    (∀ rel, i = .jmpRel8 rel → t.eip = s.eip + 2#32 + sext32 rel)

/-- R24 (D13): no step reads or writes EFLAGS: changing it beforehand changes nothing else afterwards, no step changes it, and
the snapshot does not show it. -/
def Obligations.EflagsIsInert : Prop :=
  ∀ (s t : State) (f : BitVec 32), step s = .next t →
    t.eflags = s.eflags ∧ step { s with eflags := f } = .next { t with eflags := f } ∧
      snapshot { s with eflags := f } = snapshot s

/-- A store is what the next fetch sees (R43, R115; D16), in each of the five storing forms and wherever the four bytes
and the next instruction overlap: a fetched byte at an address of the store is the stored one, and every other fetched
byte is what memory held before the instruction. -/
def Obligations.StoreIsSeenByTheNextFetch : Prop :=
  ∀ (s t : State) (d : ModRM) (imm : Word) (imm8 : Byte) (rest : List Byte) (a : Word), s.mem.wf →
    s.status = .running → step s = .next t → t.status = .running → resolve s.regs d = .ok (.memory a) →
    (decode (fetchBytes s) = .ok (.movRm32R32 d, rest) →
      NextFetchSees s t a (s.regs.get32 (Reg32.ofId d.regOrOpcode))) ∧
    (decode (fetchBytes s) = .ok (.movRm32Imm32 d imm, rest) → NextFetchSees s t a imm) ∧
    (decode (fetchBytes s) = .ok (.addRm32R32 d, rest) →
      NextFetchSees s t a
        (BitVec.ofNat 32 ((s.mem.readDword a).toNat + (s.regs.get32 (Reg32.ofId d.regOrOpcode)).toNat))) ∧
    (decode (fetchBytes s) = .ok (.subRm32Imm8 d imm8, rest) →
      NextFetchSees s t a (BitVec.ofInt 32 ((s.mem.readDword a).toNat - imm8.toInt))) ∧
    (decode (fetchBytes s) = .ok (.incRm32 d, rest) →
      NextFetchSees s t a (BitVec.ofNat 32 ((s.mem.readDword a).toNat + 1)))

/-! ### The ALU and the ports -/

/-- The ALU's operations (R77): exact results modulo 2^32, the same bits read as unsigned or as two's-complement (R85;
D6), for each operation kind; and the jump-target sum. That a jump has no `y` is the model's choice (log entry 9). -/
def Obligations.AluResultsAreExactModulo : Prop :=
  ∀ (a b next : Word) (r : Reg32),
    (∀ kind ∈ [OpKind.movR32Imm32 r, .movRm32R32, .movR32Rm32, .movRm32Imm32],
      aluPort kind a b next = { y := some b, eipNew := next }) ∧
    (∃ y, aluPort .addRm32R32 a b next = { y := some y, eipNew := next } ∧
      y.toNat = (a.toNat + b.toNat) % 2 ^ 32 ∧ y.toInt = (a.toInt + b.toInt).bmod (2 ^ 32)) ∧
    (∃ y, aluPort .group83 a b next = { y := some y, eipNew := next } ∧
      (y.toNat : Int) = (a.toNat - b.toNat : Int) % 2 ^ 32 ∧ y.toInt = (a.toInt - b.toInt).bmod (2 ^ 32)) ∧
    (∃ y, aluPort .groupFF a b next = { y := some y, eipNew := next } ∧
      y.toNat = (a.toNat + 1) % 2 ^ 32 ∧ y.toInt = (a.toInt + 1).bmod (2 ^ 32)) ∧
    (∀ kind ∈ [OpKind.jmpRel32, .jmpRel8], (aluPort kind a b next).y = none ∧
      (aluPort kind a b next).eipNew.toNat = (next.toNat + b.toNat) % 2 ^ 32)

/-- The register file's ports (R20; D2): the reads are the pre-instruction values, and a commit with one enable is that one
write. -/
def Obligations.RegisterPortsCarryTheContracts : Prop :=
  ∀ (x : RegFile) (p : RegPortIn),
    regPortRead x p =
      { raData := x.get32 (Reg32.ofId p.raId), rbData := x.get32 (Reg32.ofId p.rbId), r8Data := x.get8 p.r8Id } ∧
    (p.wEn = true → p.w8En = false → regPortCommit x p = x.set32 (Reg32.ofId p.wId) p.wData) ∧
    (p.wEn = false → p.w8En = true → regPortCommit x p = x.set8 p.w8Id p.w8Data) ∧
    (p.wEn = false → p.w8En = false → regPortCommit x p = x)

/-- The memory port (R38; D2, D6, D7): `m_oob` is asserted exactly when a byte is outside memory, and then nothing is
written; a read inside memory returns the byte, its upper 24 bits 0 by the model's choice (log entry 9), or the dword; a
write inside memory stores the low bytes of `m_wdata`, lowest first, which the same read then returns; and no access changes any other byte or MEM_SIZE. -/
def Obligations.MemoryPortPerformsTheAccess : Prop :=
  ∀ (m : Memory) (p : MemPortIn), m.wf →
    let n := match p.size with
      | .one => 1
      | .four => 4
    ((memPortRead m p).oob = true ↔ ∃ k : Nat, k < n ∧ m.capacity ≤ (p.addr + BitVec.ofNat 32 k).toNat) ∧
    ((memPortRead m p).oob = true → memPortCommit m p = m) ∧
    (p.we = false → memPortCommit m p = m) ∧
    ((memPortRead m p).oob = false → p.we = false →
      (memPortRead m p).rdata = some (match p.size with
        | .one => zext32 (m.readByte p.addr)
        | .four => m.readDword p.addr)) ∧
    ((memPortRead m p).oob = false → p.we = true → ∀ k : Nat, k < n →
      (memPortCommit m p).readByte (p.addr + BitVec.ofNat 32 k) = p.wdata.extractLsb' (8 * k) 8) ∧
    ((memPortRead m p).oob = false → p.we = true →
      memPortRead (memPortCommit m p) { p with we := false } =
        { rdata := some (match p.size with | .one => zext32 (byteOfDword p.wdata 0) | .four => p.wdata), oob := false }) ∧
    (∀ b : Word, (∀ k : Nat, k < n → b ≠ p.addr + BitVec.ofNat 32 k) →
      (memPortCommit m p).readByte b = m.readByte b) ∧
    (memPortCommit m p).capacity = m.capacity

/-- The modrm_decoder's port (R57; D2) agrees with ModRMDecode (R52) on the bytes before the first one out of bounds: the
same fields, displacement kind and M without an error, and OutOfBounds exactly when those bytes end too early. That `sib`
and `disp` are absent where the group has none is the model's choice (log entry 9). -/
def Obligations.ModRMPortAgreesWithTheDecoder : Prop :=
  ∀ p : ModRMPortIn,
    let bs := (([(p.b0, p.oob0), (p.b1, p.oob1), (p.b2, p.oob2), (p.b3, p.oob3), (p.b4, p.oob4), (p.b5, p.oob5)]
      |>.takeWhile fun c => !c.2).map Prod.fst)
    ((modrmPort p).err = none → ∃ d rest, takeModRM bs = .ok (d, rest) ∧
      (modrmPort p).mod = d.mod ∧ (modrmPort p).regOrOpcode = d.regOrOpcode ∧ (modrmPort p).rm = d.rm ∧
      (modrmPort p).sib = d.sib ∧
      (modrmPort p).dispKind = (match d.disp with | .none => .none | .disp8 _ => .disp8 | .disp32 _ => .disp32) ∧
      (modrmPort p).disp = (if d.disp = .none then none else some d.disp.toWord) ∧
      bs.length = rest.length + (modrmPort p).len.toNat ∧ (modrmPort p).len.toNat = groupLength p.b0) ∧
    ((modrmPort p).err ≠ none → (modrmPort p).err = some .outOfBounds ∧ takeModRM bs = .error .truncated)

/-- The effective_address_calculator's port (R60; D2), given the modrm_decoder's outputs and the register `rm` names,
gives what Resolve (R58) gives. That the location is absent beside an error is the model's choice (log entry 9). -/
def Obligations.EacPortResolvesTheOperand : Prop :=
  ∀ (x : RegFile) (d : ModRM) (kind : DispKind),
    (kind = match d.disp with | .none => .none | .disp8 _ => .disp8 | .disp32 _ => .disp32) →
    (∀ loc, resolve x d = .ok loc →
      eacPort d.mod d.rm kind d.disp.toWord (x.get32 (Reg32.ofId d.rm)) = { loc := some loc, err := none }) ∧
    (∀ k, resolve x d = .error k →
      eacPort d.mod d.rm kind d.disp.toWord (x.get32 (Reg32.ofId d.rm)) = { loc := none, err := some k })

/-- The x86_decoder's port (R50; D2). `err` is UnknownOpcode exactly for the unmapped bytes. It is NotImplemented exactly
when a ModRM field is given and is an unlisted sub-opcode of a group, which is exactly when the decoder rejects such a
group. It is never anything else. `reg_in_opcode` is the low bits of B8..BF, which name that kind's register. -/
def Obligations.DecoderPortReportsTheDecodersErrors : Prop :=
  (∀ (op : Byte) (field : Option (BitVec 3)),
    ((decoderPort op field).err = some .unknownOpcode ↔ dispatch op = none) ∧
      (decoderPort op field).err ≠ some .outOfBounds) ∧
  (∀ op : Byte, (decoderPort op none).err ≠ some .notImplemented) ∧
  (∀ op b : Byte, (decoderPort op (some (regOf b))).err = some .notImplemented ↔
    ∃ kind, dispatch op = some kind ∧ SubOpcodeUnlisted kind b) ∧
  (∀ (op : Byte) (d : ModRM) (rest : List Byte), d.wf = true → (decoderPort op none).hasModRM = true →
    ((decoderPort op (some d.regOrOpcode)).err = some .notImplemented ↔
      decode (op :: (encodeModRM d ++ rest)) = .error (.unsupportedSubOpcode op d.regOrOpcode))) ∧
  (∀ (op : Byte) (field : Option (BitVec 3)) (r : Reg32), (decoderPort op field).kind = some (.movR32Imm32 r) →
    (decoderPort op field).regInOpcode = some (op.extractLsb' 0 3) ∧ r = Reg32.ofId (op.extractLsb' 0 3))

/-! ### The host -/

/-- R91: the three kinds and their codes (D12). -/
def Obligations.ErrorKindsHaveTheirCodes : Prop :=
  ErrorKind.unknownOpcode.code = 1 ∧ ErrorKind.notImplemented.code = 2 ∧ ErrorKind.outOfBounds.code = 3 ∧
    ∀ kind : ErrorKind, kind = .unknownOpcode ∨ kind = .notImplemented ∨ kind = .outOfBounds

/-- Image loading (R111): an image that lies inside memory is copied from its offset upward, and every other byte and
piece of state stays as it was; one that does not is refused, which is the model's choice (log entry 10), as it is for an
empty image at an offset above MEM_SIZE. -/
def Obligations.ImageLoadingCopiesTheImage : Prop :=
  ∀ (offset : Nat) (image : List Byte) (s : State), s.mem.wf →
    (offset + image.length ≤ s.mem.capacity → ∃ t, hostLoadImage offset image s = .next t ∧
      t.mem.wf ∧ t.mem.capacity = s.mem.capacity ∧
      t.regs = s.regs ∧ t.eip = s.eip ∧ t.eflags = s.eflags ∧ t.status = s.status ∧
      ∀ a : Word, some (t.mem.readByte a) =
        if offset ≤ a.toNat ∧ a.toNat < offset + image.length then image[a.toNat - offset]?
        else some (s.mem.readByte a)) ∧
    (s.mem.capacity < offset + image.length → hostLoadImage offset image s = .refused .imageOutsideMemory)

/-- The word the host places (log entry 3) is what the next step runs, wherever all the bytes it takes are inside
memory. -/
def Obligations.PlacedWordIsRunByTheNextStep : Prop :=
  ∀ (s : State) (nbits w : Nat) (i : Instr), s.mem.wf → s.InstrInside maxInstrBytes →
    decodeTableWord nbits w = some i →
    step (s.withFetchWord nbits w) = afterInstr (exec i (s.withFetchWord nbits w))
end

