-- ==== Sys2Proof/Laws/Decode.lean ====
section
/-! SUPPORT. Laws of the bit-field and byte-order helpers and of the decoder's readers. -/

namespace Sys2Proof

@[simp] theorem Reg32.ofId_id (r : Reg32) : Reg32.ofId r.id = r := by cases r <;> rfl

@[simp] theorem Reg32.id_ofId (b : BitVec 3) : (Reg32.ofId b).id = b := by
  revert b; decide

/-- A dword is its four bytes. -/
@[simp] theorem dwordOfBytes_byteOfDword (v : Word) :
    dwordOfBytes (byteOfDword v 0) (byteOfDword v 1) (byteOfDword v 2) (byteOfDword v 3) = v := by
  apply BitVec.eq_of_getLsbD_eq
  intro i hi
  simp only [dwordOfBytes, byteOfDword, BitVec.getLsbD_append, BitVec.getLsbD_extractLsb']
  interval_cases i <;> simp

theorem byteOfDword_dwordOfBytes (b0 b1 b2 b3 : Byte) :
    byteOfDword (dwordOfBytes b0 b1 b2 b3) 0 = b0 ∧ byteOfDword (dwordOfBytes b0 b1 b2 b3) 1 = b1 ∧
      byteOfDword (dwordOfBytes b0 b1 b2 b3) 2 = b2 ∧ byteOfDword (dwordOfBytes b0 b1 b2 b3) 3 = b3 := by
  refine ⟨?_, ?_, ?_, ?_⟩ <;>
  · apply BitVec.eq_of_getLsbD_eq
    intro i hi
    simp only [dwordOfBytes, byteOfDword, BitVec.getLsbD_extractLsb', BitVec.getLsbD_append]
    interval_cases i <;> simp

end Sys2Proof
end

