-- ==== Sys2Proof/Laws/Memory.lean ====
section
/-! SUPPORT. Laws of memory: read after write, what a write leaves alone, and that every operation keeps the canonical
form. -/

namespace Sys2Proof.Machine

open Host

/-- Strictly rising addresses. -/
abbrev Rising (cs : List Cell) : Prop := cs.Pairwise (fun c d => c.1 < d.1)

theorem cellsGet_of_lt {cs : List Cell} {a : Nat} (h : ∀ c ∈ cs, a < c.1) : cellsGet cs a = unlistedByte := by
  induction cs with
  | nil => rfl
  | cons c cs ih =>
    have hc := h c (by simp)
    rw [cellsGet, if_neg (by omega)]
    exact ih fun d hd => h d (by simp [hd])

theorem cellsGet_cellsCons {cs : List Cell} {a : Nat} (v : Byte) (h : ∀ c ∈ cs, a < c.1) (b : Nat) :
    cellsGet (cellsCons a v cs) b = if b = a then v else cellsGet cs b := by
  unfold cellsCons
  by_cases hv : v = unlistedByte
  · rw [if_pos hv]
    by_cases hb : b = a
    · rw [if_pos hb, hb, hv, cellsGet_of_lt h]
    · rw [if_neg hb]
  · rw [if_neg hv, cellsGet]
    by_cases hb : b = a
    · simp [hb]
    · rw [if_neg (fun e => hb e.symm), if_neg hb]

/-- A byte read after a byte write, on a list in rising order. -/
theorem cellsGet_cellsSet {cs : List Cell} (hr : Rising cs) (a : Nat) (v : Byte) (b : Nat) :
    cellsGet (cellsSet cs a v) b = if b = a then v else cellsGet cs b := by
  induction cs with
  | nil => exact cellsGet_cellsCons v (by simp) b
  | cons c cs ih =>
    obtain ⟨k, w⟩ := c
    obtain ⟨hk, hr⟩ := List.pairwise_cons.mp hr
    rw [cellsSet]
    by_cases h1 : a < k
    · rw [if_pos h1, cellsGet_cellsCons]
      intro c hc
      rcases List.mem_cons.mp hc with rfl | hc
      · exact h1
      · exact h1.trans (hk c hc)
    · rw [if_neg h1]
      by_cases h2 : a = k
      · rw [if_pos h2, cellsGet_cellsCons v (by rw [h2]; exact hk), cellsGet]
        by_cases hb : b = a
        · rw [if_pos hb, if_pos hb]
        · rw [if_neg hb, if_neg hb, if_neg (by omega)]
      · rw [if_neg h2, cellsGet, ih hr, cellsGet]
        by_cases hb : k = b
        · rw [if_pos hb, if_pos hb, if_neg (by omega)]
        · rw [if_neg hb, if_neg hb]

theorem mem_cellsCons {cs : List Cell} {a : Nat} {v : Byte} {c : Cell} (h : c ∈ cellsCons a v cs) :
    (c = (a, v) ∧ v ≠ unlistedByte) ∨ c ∈ cs := by
  unfold cellsCons at h
  by_cases hv : v = unlistedByte
  · rw [if_pos hv] at h; exact .inr h
  · rw [if_neg hv] at h
    rcases List.mem_cons.mp h with h | h
    · exact .inl ⟨h, hv⟩
    · exact .inr h

/-- An entry after a byte write is the written one or an earlier one. -/
theorem mem_cellsSet {cs : List Cell} {a : Nat} {v : Byte} {c : Cell} (h : c ∈ cellsSet cs a v) :
    (c = (a, v) ∧ v ≠ unlistedByte) ∨ c ∈ cs := by
  induction cs with
  | nil => simpa using mem_cellsCons h
  | cons d cs ih =>
    obtain ⟨k, w⟩ := d
    rw [cellsSet] at h
    split at h
    · exact mem_cellsCons h
    · split at h
      · rcases mem_cellsCons h with h | h
        · exact .inl h
        · exact .inr (by simp [h])
      · rcases List.mem_cons.mp h with h | h
        · exact .inr (by simp [h])
        · rcases ih h with h | h
          · exact .inl h
          · exact .inr (by simp [h])

theorem rising_cellsCons {cs : List Cell} {a : Nat} (v : Byte) (hr : Rising cs) (h : ∀ c ∈ cs, a < c.1) :
    Rising (cellsCons a v cs) := by
  unfold cellsCons
  split
  · exact hr
  · exact List.pairwise_cons.mpr ⟨h, hr⟩

theorem rising_cellsSet {cs : List Cell} (hr : Rising cs) (a : Nat) (v : Byte) : Rising (cellsSet cs a v) := by
  induction cs with
  | nil => exact rising_cellsCons v hr (by simp)
  | cons d cs ih =>
    obtain ⟨k, w⟩ := d
    obtain ⟨hk, hr'⟩ := List.pairwise_cons.mp hr
    rw [cellsSet]
    split
    · rename_i h1
      refine rising_cellsCons v hr fun c hc => ?_
      rcases List.mem_cons.mp hc with rfl | hc
      · exact h1
      · exact h1.trans (hk c hc)
    · split
      · rename_i h2
        exact rising_cellsCons v hr' (by rw [h2]; exact hk)
      · refine List.pairwise_cons.mpr ⟨fun c hc => ?_, ih hr'⟩
        rcases mem_cellsSet hc with ⟨rfl, -⟩ | hc
        · show k < a; omega
        · exact hk c hc

/-! ### Capacity -/

variable (m : Memory)

@[simp] theorem Memory.zeroed_capacity (n : Nat) : (Memory.zeroed n).capacity = n := rfl
@[simp] theorem Memory.zeroed_readByte (n : Nat) (a : Word) : (Memory.zeroed n).readByte a = 0#8 := rfl
@[simp] theorem Memory.writeByte_capacity (a : Word) (v : Byte) : (m.writeByte a v).capacity = m.capacity := rfl
@[simp] theorem Memory.writeDword_capacity (a v : Word) : (m.writeDword a v).capacity = m.capacity := rfl

@[simp] theorem Memory.writeByte_inBounds (a : Word) (v : Byte) (b : Word) :
    (m.writeByte a v).inBounds b = m.inBounds b := rfl

@[simp] theorem Memory.writeDword_inBounds (a v b : Word) : (m.writeDword a v).inBounds b = m.inBounds b := rfl

@[simp] theorem Memory.storeBytes_capacity (a : Word) (bs : List Byte) :
    (m.storeBytes a bs).capacity = m.capacity := by
  induction bs generalizing m a with
  | nil => rfl
  | cons b bs ih =>
    rw [Memory.storeBytes, ih]
    split <;> rfl

theorem Memory.inBounds_iff (a : Word) : m.inBounds a = true ↔ a.toNat < m.capacity := by
  simp [Memory.inBounds]

theorem Memory.dwordInBounds_iff (a : Word) :
    m.dwordInBounds a = true ↔ ∀ k : Nat, k < 4 → (a + BitVec.ofNat 32 k).toNat < m.capacity := by
  simp only [Memory.dwordInBounds, Bool.and_eq_true, Memory.inBounds_iff]
  constructor
  · rintro ⟨⟨⟨h0, h1⟩, h2⟩, h3⟩ k hk
    interval_cases k
    · simpa using h0
    · exact h1
    · exact h2
    · exact h3
  · intro h
    exact ⟨⟨⟨by simpa using h 0 (by decide), h 1 (by decide)⟩, h 2 (by decide)⟩, h 3 (by decide)⟩

/-! ### The canonical form -/

theorem Memory.zeroed_wf {n : Nat} (h1 : 1 ≤ n) (h2 : n ≤ 2 ^ 32) : (Memory.zeroed n).wf :=
  ⟨h1, h2, List.Pairwise.nil, by simp [Memory.zeroed]⟩

variable {m}

theorem Memory.writeByte_wf (h : m.wf) {a : Word} (ha : m.inBounds a = true) (v : Byte) : (m.writeByte a v).wf := by
  obtain ⟨h1, h2, h3, h4⟩ := h
  refine ⟨h1, h2, rising_cellsSet h3 _ _, fun c hc => ?_⟩
  rcases mem_cellsSet hc with ⟨rfl, hv⟩ | hc
  · exact ⟨(Memory.inBounds_iff m a).mp ha, hv⟩
  · exact h4 c hc

theorem Memory.writeDword_wf (h : m.wf) {a : Word} (ha : m.dwordInBounds a = true) (v : Word) :
    (m.writeDword a v).wf := by
  simp only [Memory.dwordInBounds, Bool.and_eq_true] at ha
  obtain ⟨⟨⟨h0, h1⟩, h2⟩, h3⟩ := ha
  exact Memory.writeByte_wf (Memory.writeByte_wf (Memory.writeByte_wf (Memory.writeByte_wf h h0 _) h1 _) h2 _) h3 _

theorem Memory.storeBytes_wf (h : m.wf) (a : Word) (bs : List Byte) : (m.storeBytes a bs).wf := by
  induction bs generalizing m a with
  | nil => exact h
  | cons b bs ih =>
    rw [Memory.storeBytes]
    split
    · rename_i ha
      exact ih (Memory.writeByte_wf h ha b) _
    · exact ih h _

/-! ### Read after write -/

/-- A byte write keeps the rising order, in bounds or not. -/
theorem Memory.writeByte_rising (h : Rising m.cells) (a : Word) (v : Byte) : Rising (m.writeByte a v).cells :=
  rising_cellsSet h _ _

theorem Memory.readByte_writeByte (h : Rising m.cells) (a : Word) (v : Byte) (b : Word) :
    (m.writeByte a v).readByte b = if b = a then v else m.readByte b := by
  simp only [Memory.readByte, Memory.writeByte, cellsGet_cellsSet h, BitVec.toNat_inj]

/-- A byte read after a dword write: one of the four written bytes, or what was there. -/
theorem Memory.readByte_writeDword (h : Rising m.cells) (a v b : Word) :
    (m.writeDword a v).readByte b =
      if b = a + 3#32 then byteOfDword v 3 else if b = a + 2#32 then byteOfDword v 2
      else if b = a + 1#32 then byteOfDword v 1 else if b = a then byteOfDword v 0 else m.readByte b := by
  have h0 := Memory.writeByte_rising h a (byteOfDword v 0)
  have h1 := Memory.writeByte_rising h0 (a + 1#32) (byteOfDword v 1)
  have h2 := Memory.writeByte_rising h1 (a + 2#32) (byteOfDword v 2)
  rw [Memory.writeDword, Memory.readByte_writeByte h2, Memory.readByte_writeByte h1, Memory.readByte_writeByte h0,
    Memory.readByte_writeByte h]

/-- A dword write leaves every byte outside its four addresses alone. -/
theorem Memory.readByte_writeDword_other (h : Rising m.cells) {a b : Word} (v : Word)
    (hb : ∀ k : Nat, k < 4 → b ≠ a + BitVec.ofNat 32 k) : (m.writeDword a v).readByte b = m.readByte b := by
  rw [Memory.readByte_writeDword h, if_neg (hb 3 (by decide)), if_neg (hb 2 (by decide)), if_neg (hb 1 (by decide)),
    if_neg (by simpa using hb 0 (by decide))]

end Sys2Proof.Machine
end

