-- ==== Sys2Proof/Laws/State.lean ====
section
/-! SUPPORT. One lemma per field per update of State, of the register file and of construction, so that no later proof
unfolds a record update. -/

namespace Sys2Proof.Machine

variable (s : State)

@[simp] theorem State.setRegs_regs (x : RegFile) : (s.setRegs x).regs = x := rfl
@[simp] theorem State.setRegs_eip (x : RegFile) : (s.setRegs x).eip = s.eip := rfl
@[simp] theorem State.setRegs_mem (x : RegFile) : (s.setRegs x).mem = s.mem := rfl
@[simp] theorem State.setRegs_eflags (x : RegFile) : (s.setRegs x).eflags = s.eflags := rfl
@[simp] theorem State.setRegs_status (x : RegFile) : (s.setRegs x).status = s.status := rfl

@[simp] theorem State.setEip_regs (a : Word) : (s.setEip a).regs = s.regs := rfl
@[simp] theorem State.setEip_eip (a : Word) : (s.setEip a).eip = a := rfl
@[simp] theorem State.setEip_mem (a : Word) : (s.setEip a).mem = s.mem := rfl
@[simp] theorem State.setEip_eflags (a : Word) : (s.setEip a).eflags = s.eflags := rfl
@[simp] theorem State.setEip_status (a : Word) : (s.setEip a).status = s.status := rfl

@[simp] theorem State.setMem_regs (m : Memory) : (s.setMem m).regs = s.regs := rfl
@[simp] theorem State.setMem_eip (m : Memory) : (s.setMem m).eip = s.eip := rfl
@[simp] theorem State.setMem_mem (m : Memory) : (s.setMem m).mem = m := rfl
@[simp] theorem State.setMem_eflags (m : Memory) : (s.setMem m).eflags = s.eflags := rfl
@[simp] theorem State.setMem_status (m : Memory) : (s.setMem m).status = s.status := rfl

@[simp] theorem State.setEflags_regs (f : BitVec 32) : (s.setEflags f).regs = s.regs := rfl
@[simp] theorem State.setEflags_eip (f : BitVec 32) : (s.setEflags f).eip = s.eip := rfl
@[simp] theorem State.setEflags_mem (f : BitVec 32) : (s.setEflags f).mem = s.mem := rfl
@[simp] theorem State.setEflags_eflags (f : BitVec 32) : (s.setEflags f).eflags = f := rfl
@[simp] theorem State.setEflags_status (f : BitVec 32) : (s.setEflags f).status = s.status := rfl

@[simp] theorem State.setStatus_regs (st : Status) : (s.setStatus st).regs = s.regs := rfl
@[simp] theorem State.setStatus_eip (st : Status) : (s.setStatus st).eip = s.eip := rfl
@[simp] theorem State.setStatus_mem (st : Status) : (s.setStatus st).mem = s.mem := rfl
@[simp] theorem State.setStatus_eflags (st : Status) : (s.setStatus st).eflags = s.eflags := rfl
@[simp] theorem State.setStatus_status (st : Status) : (s.setStatus st).status = st := rfl

@[simp] theorem State.construct_regs (n : Nat) (a b : Word) (f : BitVec 32) :
    (State.construct n a b f).regs = RegFile.constructed b := rfl
@[simp] theorem State.construct_eip (n : Nat) (a b : Word) (f : BitVec 32) :
    (State.construct n a b f).eip = a := rfl
@[simp] theorem State.construct_mem (n : Nat) (a b : Word) (f : BitVec 32) :
    (State.construct n a b f).mem = Memory.zeroed n := rfl
@[simp] theorem State.construct_status (n : Nat) (a b : Word) (f : BitVec 32) :
    (State.construct n a b f).status = .running := rfl

/-- Reading a register after a register write. -/
theorem RegFile.get32_set32 (x : RegFile) (r q : Reg32) (v : Word) :
    (x.set32 r v).get32 q = if q = r then v else x.get32 q := by
  cases r <;> cases q <;> rfl

@[simp] theorem RegFile.get32_set32_same (x : RegFile) (r : Reg32) (v : Word) :
    (x.set32 r v).get32 r = v := by
  simp [RegFile.get32_set32]

theorem RegFile.get32_set32_other (x : RegFile) {r q : Reg32} (v : Word) (h : q ≠ r) :
    (x.set32 r v).get32 q = x.get32 q := by
  simp [RegFile.get32_set32, h]

/-- A register file is its eight registers. -/
theorem RegFile.ext_get32 {x y : RegFile} (h : ∀ r, x.get32 r = y.get32 r) : x = y := by
  cases x; cases y
  simp only [RegFile.mk.injEq]
  exact ⟨h .eax, h .ecx, h .edx, h .ebx, h .esp, h .ebp, h .esi, h .edi⟩

end Sys2Proof.Machine
end

