-- ==== Sys2Proof/Laws/Ops.lean ====
section
/-! SUPPORT. What the shared operations can do: one lemma per operation and outcome, which later proofs cite instead of
unfolding it. -/

namespace Sys2Proof.Machine

/-! ### Commit, errors and halts -/

variable (s : State) (e : Effects)

@[simp] theorem commit_regs : (commit s e).regs = commitRegs s.regs e.regW := rfl
@[simp] theorem commit_mem : (commit s e).mem = commitMem s.mem e.memW := rfl
@[simp] theorem commit_eip : (commit s e).eip = e.eipNew := rfl
@[simp] theorem commit_eflags : (commit s e).eflags = s.eflags := rfl
@[simp] theorem commit_status : (commit s e).status = s.status := rfl

@[simp] theorem commitRegs_none (x : RegFile) : commitRegs x none = x := rfl
@[simp] theorem commitRegs_some (x : RegFile) (r : Reg32) (v : Word) : commitRegs x (some (r, v)) = x.set32 r v := rfl
@[simp] theorem commitMem_none (m : Memory) : commitMem m none = m := rfl
@[simp] theorem commitMem_some (m : Memory) (a v : Word) : commitMem m (some (a, v)) = m.writeDword a v := rfl

@[simp] theorem commitMem_capacity (m : Memory) (w : Option (Word × Word)) :
    (commitMem m w).capacity = m.capacity := by
  cases w <;> rfl

variable (k : ErrorKind) (op : Byte)

@[simp] theorem raiseError_regs : (raiseError k op s).regs = s.regs := rfl
@[simp] theorem raiseError_mem : (raiseError k op s).mem = s.mem := rfl
@[simp] theorem raiseError_eip : (raiseError k op s).eip = s.eip := rfl
@[simp] theorem raiseError_eflags : (raiseError k op s).eflags = s.eflags := rfl
@[simp] theorem raiseError_status : (raiseError k op s).status = .faulted k s.eip op := rfl

@[simp] theorem haltRange_regs : (haltRange s).regs = s.regs := rfl
@[simp] theorem haltRange_mem : (haltRange s).mem = s.mem := rfl
@[simp] theorem haltRange_eip : (haltRange s).eip = s.eip := rfl
@[simp] theorem haltRange_eflags : (haltRange s).eflags = s.eflags := rfl
@[simp] theorem haltRange_status : (haltRange s).status = .haltedRange := rfl

@[simp] theorem conclude_ok (i : Instr) : conclude i s (.ok e) = .next (commit s e) := rfl
@[simp] theorem conclude_error (i : Instr) :
    conclude i s (.error k) = .next (raiseError k i.opcode s) := rfl

variable {s}

/-- The end of an instruction is a commit or an error. -/
theorem conclude_cases {i : Instr} {x : Except ErrorKind Effects} {t : State} (h : conclude i s x = .next t) :
    (∃ e, x = .ok e ∧ t = commit s e) ∨ (∃ k, x = .error k ∧ t = raiseError k i.opcode s) := by
  cases x with
  | ok e => exact .inl ⟨e, rfl, by simpa using h.symm⟩
  | error k => exact .inr ⟨k, rfl, by simpa using h.symm⟩

/-- The sentinel test halts a running state at `eip` = 0 and leaves every other state as it is. -/
theorem sentinelTest_cases (s : State) :
    (s.status = .running ∧ s.eip = 0#32 ∧ sentinelTest s = s.setStatus .haltedSentinel) ∨
      (¬(s.status = .running ∧ s.eip = 0#32) ∧ sentinelTest s = s) := by
  unfold sentinelTest
  split
  · rename_i h; exact .inl ⟨h.1, h.2, rfl⟩
  · rename_i h; exact .inr ⟨h, rfl⟩

@[simp] theorem sentinelTest_regs : (sentinelTest s).regs = s.regs := by
  rcases sentinelTest_cases s with ⟨-, -, h⟩ | ⟨-, h⟩ <;> simp [h]
@[simp] theorem sentinelTest_mem : (sentinelTest s).mem = s.mem := by
  rcases sentinelTest_cases s with ⟨-, -, h⟩ | ⟨-, h⟩ <;> simp [h]
@[simp] theorem sentinelTest_eip : (sentinelTest s).eip = s.eip := by
  rcases sentinelTest_cases s with ⟨-, -, h⟩ | ⟨-, h⟩ <;> simp [h]
@[simp] theorem sentinelTest_eflags : (sentinelTest s).eflags = s.eflags := by
  rcases sentinelTest_cases s with ⟨-, -, h⟩ | ⟨-, h⟩ <;> simp [h]

@[simp] theorem afterInstr_next (t : State) : afterInstr (.next t) = .next (sentinelTest t) := rfl

/-- Only a next state passes through the sentinel test. -/
theorem afterInstr_cases {x : Answer} {t : State} (h : afterInstr x = .next t) :
    ∃ u, x = .next u ∧ t = sentinelTest u := by
  cases x with
  | next u => exact ⟨u, rfl, by simpa using h.symm⟩
  | fault f => cases h
  | refused r => cases h

/-- Only RUNNING has a step. -/
theorem noStep_eq_none {st : Status} : noStep st = none ↔ st = .running := by
  cases st <;> simp [noStep]

/-! ### The memory port -/

theorem memRead1_ok {m : Memory} {a : Word} (h : m.inBounds a = true) : memRead1 m a = .ok (m.readByte a) := by
  simp [memRead1, h]

theorem memRead1_error {m : Memory} {a : Word} (h : m.inBounds a = false) :
    memRead1 m a = .error .outOfBounds := by
  simp [memRead1, h]

theorem memRead4_ok {m : Memory} {a : Word} (h : m.dwordInBounds a = true) : memRead4 m a = .ok (m.readDword a) := by
  simp [memRead4, h]

theorem memRead4_error {m : Memory} {a : Word} (h : m.dwordInBounds a = false) :
    memRead4 m a = .error .outOfBounds := by
  simp [memRead4, h]

/-- A window that has a byte begins inside memory, at its first byte. -/
theorem fetchWindow_cases {m : Memory} {n : Nat} {a : Word} {b : Byte} {bs : List Byte}
    (h : fetchWindow m (n + 1) a = b :: bs) :
    m.inBounds a = true ∧ b = m.readByte a ∧ bs = fetchWindow m n (a + 1#32) := by
  rw [fetchWindow] at h
  cases hb : m.inBounds a with
  | true =>
    rw [memRead1_ok hb] at h
    cases h
    exact ⟨rfl, rfl, rfl⟩
  | false =>
    rw [memRead1_error hb] at h
    cases h

theorem fetchWindow_succ {m : Memory} (n : Nat) {a : Word} (h : m.inBounds a = true) :
    fetchWindow m (n + 1) a = m.readByte a :: fetchWindow m n (a + 1#32) := by
  rw [fetchWindow, memRead1_ok h]

theorem fetchWindow_nil {m : Memory} (n : Nat) {a : Word} (h : m.inBounds a = false) :
    fetchWindow m n a = [] := by
  cases n with
  | zero => rfl
  | succ n => rw [fetchWindow, memRead1_error h]

end Sys2Proof.Machine
end

