-- ==== Sys2Proof/Laws/Operands.lean ====
section
/-! SUPPORT. What resolving, reading and writing the `rm` operand can do. -/

namespace Sys2Proof.Machine

variable {x : RegFile} {d : ModRM} {s : State}

/-- mod = 3 names a register. -/
theorem resolve_register (h : d.mod = 3#2) : resolve x d = .ok (.register d.rmReg) := by
  simp [resolve, effectiveAddress, ModRM.rmReg, h]

/-- A SIB form does not resolve. -/
theorem resolve_sib (h : d.mod ≠ 3#2) (hr : d.rm = 4#3) : resolve x d = .error .notImplemented := by
  simp [resolve, effectiveAddress, h, hr]

/-- Every other form names memory. -/
theorem resolve_memory (h : d.mod ≠ 3#2) (hr : d.rm ≠ 4#3) :
    resolve x d = .ok (.memory
      (if d.mod = 0#2 ∧ d.rm = 5#3 then d.disp.toWord
       else if d.mod = 0#2 then x.get32 d.rmReg
       else x.get32 d.rmReg + d.disp.toWord)) := by
  unfold resolve effectiveAddress
  rw [if_neg h, if_neg hr]
  split
  · rfl
  · split <;> rfl

/-- The one error resolving raises. -/
theorem resolve_error {k : ErrorKind} (h : resolve x d = .error k) : k = .notImplemented ∧ d.mod ≠ 3#2 ∧ d.rm = 4#3 := by
  by_cases h3 : d.mod = 3#2
  · rw [resolve_register h3] at h; cases h
  · by_cases h4 : d.rm = 4#3
    · rw [resolve_sib h3 h4] at h; cases h; exact ⟨rfl, h3, h4⟩
    · rw [resolve_memory h3 h4] at h; cases h

/-- A form that resolves to a register is register direct. -/
theorem resolve_eq_register {r : Reg32} (h : resolve x d = .ok (.register r)) : d.mod = 3#2 ∧ r = d.rmReg := by
  by_cases h3 : d.mod = 3#2
  · rw [resolve_register h3] at h; cases h; exact ⟨h3, rfl⟩
  · by_cases h4 : d.rm = 4#3
    · rw [resolve_sib h3 h4] at h; cases h
    · rw [resolve_memory h3 h4] at h; cases h

/-- What an execute phase may produce: the new `eip` it was given, and either one register write or one memory write
whose bounds are checked. -/
def Effects.Legal (e : Effects) (m : Memory) (eipNew : Word) : Prop :=
  e.eipNew = eipNew ∧
    ((∃ r v, e.regW = some (r, v) ∧ e.memW = none) ∨
      (∃ a v, e.regW = none ∧ e.memW = some (a, v) ∧ m.dwordInBounds a = true))

/-- An error of an execute phase is NotImplemented or OutOfBounds. -/
abbrev ExecuteError (k : ErrorKind) : Prop := k = .notImplemented ∨ k = .outOfBounds

theorem readRM32_error {loc : Loc} {k : ErrorKind} (h : readRM32 s loc = .error k) : k = .outOfBounds := by
  cases loc with
  | register r => cases h
  | memory a =>
    cases hb : s.mem.dwordInBounds a with
    | true => rw [readRM32, memRead4_ok hb] at h; cases h
    | false => rw [readRM32, memRead4_error hb] at h; cases h; rfl

theorem writeRM32_ok {loc : Loc} {v p : Word} {e : Effects} (h : writeRM32 s loc v p = .ok e) : e.Legal s.mem p := by
  cases loc with
  | register r => cases h; exact ⟨rfl, .inl ⟨r, v, rfl, rfl⟩⟩
  | memory a =>
    simp only [writeRM32] at h
    split at h
    · rename_i hb; cases h; exact ⟨rfl, .inr ⟨a, v, rfl, rfl, hb⟩⟩
    · cases h

theorem writeRM32_error {loc : Loc} {v p : Word} {k : ErrorKind} (h : writeRM32 s loc v p = .error k) :
    k = .outOfBounds := by
  cases loc with
  | register r => cases h
  | memory a =>
    simp only [writeRM32] at h
    split at h
    · cases h
    · cases h; rfl

theorem storeRM32_ok {v p : Word} {e : Effects} (h : storeRM32 s d v p = .ok e) :
    ∃ loc, resolve s.regs d = .ok loc ∧ writeRM32 s loc v p = .ok e := by
  unfold storeRM32 at h
  cases hr : resolve s.regs d with
  | error k => rw [hr] at h; cases h
  | ok loc => rw [hr] at h; exact ⟨loc, rfl, h⟩

theorem storeRM32_error {v p : Word} {k : ErrorKind} (h : storeRM32 s d v p = .error k) : ExecuteError k := by
  unfold storeRM32 at h
  cases hr : resolve s.regs d with
  | error j => rw [hr] at h; cases h; exact .inl (resolve_error hr).1
  | ok loc => rw [hr] at h; exact .inr (writeRM32_error h)

theorem loadRM32_ok {r : Reg32} {p : Word} {e : Effects} (h : loadRM32 s d r p = .ok e) :
    ∃ loc v, resolve s.regs d = .ok loc ∧ readRM32 s loc = .ok v ∧
      e = { regW := some (r, v), memW := none, eipNew := p } := by
  unfold loadRM32 at h
  cases hr : resolve s.regs d with
  | error k => rw [hr] at h; cases h
  | ok loc =>
    rw [hr] at h
    cases hv : readRM32 s loc with
    | error k => simp only [hv] at h; cases h
    | ok v => simp only [hv] at h; cases h; exact ⟨loc, v, rfl, hv, rfl⟩

theorem loadRM32_error {r : Reg32} {p : Word} {k : ErrorKind} (h : loadRM32 s d r p = .error k) :
    ExecuteError k := by
  unfold loadRM32 at h
  cases hr : resolve s.regs d with
  | error j => rw [hr] at h; cases h; exact .inl (resolve_error hr).1
  | ok loc =>
    rw [hr] at h
    cases hv : readRM32 s loc with
    | error j => simp only [hv] at h; cases h; exact .inr (readRM32_error hv)
    | ok v => simp only [hv] at h; cases h

theorem modifyRM32_ok {op : Word → AluOp} {p : Word} {e : Effects} (h : modifyRM32 s d op p = .ok e) :
    ∃ loc a, resolve s.regs d = .ok loc ∧ readRM32 s loc = .ok a ∧ writeRM32 s loc (alu (op a)) p = .ok e := by
  unfold modifyRM32 at h
  cases hr : resolve s.regs d with
  | error k => rw [hr] at h; cases h
  | ok loc =>
    rw [hr] at h
    cases hv : readRM32 s loc with
    | error k => simp only [hv] at h; cases h
    | ok v => simp only [hv] at h; exact ⟨loc, v, rfl, hv, h⟩

theorem modifyRM32_error {op : Word → AluOp} {p : Word} {k : ErrorKind} (h : modifyRM32 s d op p = .error k) :
    ExecuteError k := by
  unfold modifyRM32 at h
  cases hr : resolve s.regs d with
  | error j => rw [hr] at h; cases h; exact .inl (resolve_error hr).1
  | ok loc =>
    rw [hr] at h
    cases hv : readRM32 s loc with
    | error j => simp only [hv] at h; cases h; exact .inr (readRM32_error hv)
    | ok v => simp only [hv] at h; exact .inr (writeRM32_error h)

/-! The register and memory forms of each execute phase, ready to rewrite with. -/

theorem storeRM32_register (v p : Word) (h : d.mod = 3#2) :
    storeRM32 s d v p = .ok { regW := some (d.rmReg, v), memW := none, eipNew := p } := by
  simp [storeRM32, resolve_register h, writeRM32]

theorem storeRM32_memory (v p : Word) {a : Word} (h : resolve s.regs d = .ok (.memory a))
    (hb : s.mem.dwordInBounds a = true) :
    storeRM32 s d v p = .ok { regW := none, memW := some (a, v), eipNew := p } := by
  simp [storeRM32, h, writeRM32, hb]

theorem storeRM32_outside (v p : Word) {a : Word} (h : resolve s.regs d = .ok (.memory a))
    (hb : s.mem.dwordInBounds a = false) : storeRM32 s d v p = .error .outOfBounds := by
  simp [storeRM32, h, writeRM32, hb]

theorem loadRM32_register (r : Reg32) (p : Word) (h : d.mod = 3#2) :
    loadRM32 s d r p = .ok { regW := some (r, s.regs.get32 d.rmReg), memW := none, eipNew := p } := by
  simp [loadRM32, resolve_register h, readRM32, alu]

theorem loadRM32_memory (r : Reg32) (p : Word) {a : Word} (h : resolve s.regs d = .ok (.memory a))
    (hb : s.mem.dwordInBounds a = true) :
    loadRM32 s d r p = .ok { regW := some (r, s.mem.readDword a), memW := none, eipNew := p } := by
  simp [loadRM32, h, readRM32, memRead4_ok hb, alu]

theorem loadRM32_outside (r : Reg32) (p : Word) {a : Word} (h : resolve s.regs d = .ok (.memory a))
    (hb : s.mem.dwordInBounds a = false) : loadRM32 s d r p = .error .outOfBounds := by
  simp [loadRM32, h, readRM32, memRead4_error hb]

theorem modifyRM32_register (op : Word → AluOp) (p : Word) (h : d.mod = 3#2) :
    modifyRM32 s d op p =
      .ok { regW := some (d.rmReg, alu (op (s.regs.get32 d.rmReg))), memW := none, eipNew := p } := by
  simp [modifyRM32, resolve_register h, readRM32, writeRM32]

theorem modifyRM32_memory (op : Word → AluOp) (p : Word) {a : Word} (h : resolve s.regs d = .ok (.memory a))
    (hb : s.mem.dwordInBounds a = true) :
    modifyRM32 s d op p =
      .ok { regW := none, memW := some (a, alu (op (s.mem.readDword a))), eipNew := p } := by
  simp [modifyRM32, h, readRM32, memRead4_ok hb, writeRM32, hb]

theorem modifyRM32_outside (op : Word → AluOp) (p : Word) {a : Word} (h : resolve s.regs d = .ok (.memory a))
    (hb : s.mem.dwordInBounds a = false) : modifyRM32 s d op p = .error .outOfBounds := by
  simp [modifyRM32, h, readRM32, memRead4_error hb]

theorem storeRM32_sib (v p : Word) (h : d.mod ≠ 3#2) (hr : d.rm = 4#3) :
    storeRM32 s d v p = .error .notImplemented := by
  simp [storeRM32, resolve_sib h hr]

theorem loadRM32_sib (r : Reg32) (p : Word) (h : d.mod ≠ 3#2) (hr : d.rm = 4#3) :
    loadRM32 s d r p = .error .notImplemented := by
  simp [loadRM32, resolve_sib h hr]

theorem modifyRM32_sib (op : Word → AluOp) (p : Word) (h : d.mod ≠ 3#2) (hr : d.rm = 4#3) :
    modifyRM32 s d op p = .error .notImplemented := by
  simp [modifyRM32, resolve_sib h hr]

end Sys2Proof.Machine
end

