-- ==== Sys2Proof/Laws/PerInstr.lean ====
section
/-! SUPPORT. Facts about every instruction as syntax, one lemma per constructor. The family EncodeLength: an encoding is
as long as the instruction's length says (30_encoding.md R46). -/

namespace Sys2Proof.Laws

@[simp] theorem dwordBytes_length (v : Word) : (dwordBytes v).length = 4 := rfl

@[simp] theorem dispBytes_length (d : Disp) : d.bytes.length = d.size := by
  cases d <;> rfl

@[simp] theorem encodeModRM_length (d : ModRM) : (encodeModRM d).length = d.length := by
  rw [encodeModRM, List.length_cons, List.length_append, dispBytes_length, ModRM.length]
  cases d.sib <;> simp <;> omega

end Sys2Proof.Laws

namespace Sys2Proof.Laws.EncodeLength

/-- The encoding of `i` has `i.length` bytes. -/
def Statement (i : Instr) : Prop := (encode i).length = i.length

theorem movR32Imm32 (r : Reg32) (imm : Word) : Statement (.movR32Imm32 r imm) := rfl

theorem addRm32R32 (d : ModRM) : Statement (.addRm32R32 d) := by
  simp [Statement, encode, Instr.length, Nat.add_comm]

theorem subRm32Imm8 (d : ModRM) (imm : Byte) : Statement (.subRm32Imm8 d imm) := by
  simp [Statement, encode, Instr.length, Nat.add_comm]

theorem movRm32R32 (d : ModRM) : Statement (.movRm32R32 d) := by
  simp [Statement, encode, Instr.length, Nat.add_comm]

theorem movR32Rm32 (d : ModRM) : Statement (.movR32Rm32 d) := by
  simp [Statement, encode, Instr.length, Nat.add_comm]

theorem movRm32Imm32 (d : ModRM) (imm : Word) : Statement (.movRm32Imm32 d imm) := by
  simp [Statement, encode, Instr.length]; omega

theorem incRm32 (d : ModRM) : Statement (.incRm32 d) := by
  simp [Statement, encode, Instr.length, Nat.add_comm]

theorem jmpRel32 (rel : Word) : Statement (.jmpRel32 rel) := rfl

theorem jmpRel8 (rel : Byte) : Statement (.jmpRel8 rel) := rfl

end Sys2Proof.Laws.EncodeLength
end

