-- ==== Sys2Proof/Laws/Step.lean ====
section
/-! SUPPORT. What an instruction, a fetch and a step can do, said once. -/

namespace Sys2Proof.Machine

variable {s t : State}

/-! Every instruction as the conclusion of its execute phase. -/

theorem exec_movR32Imm32 (r : Reg32) (imm : Word) (s : State) :
    exec (.movR32Imm32 r imm) s = conclude (.movR32Imm32 r imm) s
      (.ok { regW := some (r, imm), memW := none, eipNew := nextEip s (.movR32Imm32 r imm) }) := rfl

theorem exec_addRm32R32 (d : ModRM) (s : State) :
    exec (.addRm32R32 d) s = conclude (.addRm32R32 d) s
      (modifyRM32 s d (fun a => .add a (s.regs.get32 d.reg)) (nextEip s (.addRm32R32 d))) := rfl

theorem exec_subRm32Imm8 (d : ModRM) (imm : Byte) (s : State) :
    exec (.subRm32Imm8 d imm) s = conclude (.subRm32Imm8 d imm) s
      (modifyRM32 s d (fun a => .sub a (sext32 imm)) (nextEip s (.subRm32Imm8 d imm))) := rfl

theorem exec_movRm32R32 (d : ModRM) (s : State) :
    exec (.movRm32R32 d) s = conclude (.movRm32R32 d) s
      (storeRM32 s d (s.regs.get32 d.reg) (nextEip s (.movRm32R32 d))) := rfl

theorem exec_movR32Rm32 (d : ModRM) (s : State) :
    exec (.movR32Rm32 d) s = conclude (.movR32Rm32 d) s
      (loadRM32 s d d.reg (nextEip s (.movR32Rm32 d))) := rfl

theorem exec_movRm32Imm32 (d : ModRM) (imm : Word) (s : State) :
    exec (.movRm32Imm32 d imm) s = conclude (.movRm32Imm32 d imm) s
      (storeRM32 s d imm (nextEip s (.movRm32Imm32 d imm))) := rfl

theorem exec_incRm32 (d : ModRM) (s : State) :
    exec (.incRm32 d) s = conclude (.incRm32 d) s
      (modifyRM32 s d (fun a => .inc a) (nextEip s (.incRm32 d))) := rfl

theorem exec_jmpRel32 (rel : Word) (s : State) :
    exec (.jmpRel32 rel) s = conclude (.jmpRel32 rel) s
      (.ok { regW := none, memW := none, eipNew := jumpTarget (nextEip s (.jmpRel32 rel)) rel }) := rfl

theorem exec_jmpRel8 (rel : Byte) (s : State) :
    exec (.jmpRel8 rel) s = conclude (.jmpRel8 rel) s
      (.ok { regW := none, memW := none, eipNew := jumpTarget (nextEip s (.jmpRel8 rel)) (sext32 rel) }) := rfl

/-- `eip` after a completed instruction: the jump target of a jump, the next address otherwise. -/
def eipAfter (s : State) : Instr → Word
  | .jmpRel32 rel => jumpTarget (nextEip s (.jmpRel32 rel)) rel
  | .jmpRel8 rel => jumpTarget (nextEip s (.jmpRel8 rel)) (sext32 rel)
  | i => nextEip s i

/-- An instruction commits at most one register write or one checked memory write and its `eip`, or raises
NotImplemented or OutOfBounds with its own opcode byte. -/
theorem exec_cases {i : Instr} (h : exec i s = .next t) :
    (∃ e : Effects, t = commit s e ∧
        (e.Legal s.mem (eipAfter s i) ∨ e = { regW := none, memW := none, eipNew := eipAfter s i })) ∨
      (∃ k, ExecuteError k ∧ t = raiseError k i.opcode s) := by
  cases i with
  | movR32Imm32 r imm =>
    rw [exec_movR32Imm32] at h
    rcases conclude_cases h with ⟨e, he, rfl⟩ | ⟨k, hk, -⟩
    · cases he; exact .inl ⟨_, rfl, .inl ⟨rfl, .inl ⟨r, imm, rfl, rfl⟩⟩⟩
    · cases hk
  | addRm32R32 d =>
    rw [exec_addRm32R32] at h
    rcases conclude_cases h with ⟨e, he, rfl⟩ | ⟨k, hk, rfl⟩
    · obtain ⟨loc, a, -, -, hw⟩ := modifyRM32_ok he
      exact .inl ⟨e, rfl, .inl (writeRM32_ok hw)⟩
    · exact .inr ⟨k, modifyRM32_error hk, rfl⟩
  | subRm32Imm8 d imm =>
    rw [exec_subRm32Imm8] at h
    rcases conclude_cases h with ⟨e, he, rfl⟩ | ⟨k, hk, rfl⟩
    · obtain ⟨loc, a, -, -, hw⟩ := modifyRM32_ok he
      exact .inl ⟨e, rfl, .inl (writeRM32_ok hw)⟩
    · exact .inr ⟨k, modifyRM32_error hk, rfl⟩
  | movRm32R32 d =>
    rw [exec_movRm32R32] at h
    rcases conclude_cases h with ⟨e, he, rfl⟩ | ⟨k, hk, rfl⟩
    · obtain ⟨loc, -, hw⟩ := storeRM32_ok he
      exact .inl ⟨e, rfl, .inl (writeRM32_ok hw)⟩
    · exact .inr ⟨k, storeRM32_error hk, rfl⟩
  | movR32Rm32 d =>
    rw [exec_movR32Rm32] at h
    rcases conclude_cases h with ⟨e, he, rfl⟩ | ⟨k, hk, rfl⟩
    · obtain ⟨loc, v, -, -, rfl⟩ := loadRM32_ok he
      exact .inl ⟨_, rfl, .inl ⟨rfl, .inl ⟨_, v, rfl, rfl⟩⟩⟩
    · exact .inr ⟨k, loadRM32_error hk, rfl⟩
  | movRm32Imm32 d imm =>
    rw [exec_movRm32Imm32] at h
    rcases conclude_cases h with ⟨e, he, rfl⟩ | ⟨k, hk, rfl⟩
    · obtain ⟨loc, -, hw⟩ := storeRM32_ok he
      exact .inl ⟨e, rfl, .inl (writeRM32_ok hw)⟩
    · exact .inr ⟨k, storeRM32_error hk, rfl⟩
  | incRm32 d =>
    rw [exec_incRm32] at h
    rcases conclude_cases h with ⟨e, he, rfl⟩ | ⟨k, hk, rfl⟩
    · obtain ⟨loc, a, -, -, hw⟩ := modifyRM32_ok he
      exact .inl ⟨e, rfl, .inl (writeRM32_ok hw)⟩
    · exact .inr ⟨k, modifyRM32_error hk, rfl⟩
  | jmpRel32 rel =>
    rw [exec_jmpRel32] at h
    rcases conclude_cases h with ⟨e, he, rfl⟩ | ⟨k, hk, -⟩
    · cases he; exact .inl ⟨_, rfl, .inr rfl⟩
    · cases hk
  | jmpRel8 rel =>
    rw [exec_jmpRel8] at h
    rcases conclude_cases h with ⟨e, he, rfl⟩ | ⟨k, hk, -⟩
    · cases he; exact .inl ⟨_, rfl, .inr rfl⟩
    · cases hk

/-! The state with a word placed where it fetches. -/

@[simp] theorem State.withFetchWord_regs (s : State) (nbits w : Nat) : (s.withFetchWord nbits w).regs = s.regs := by
  simp [State.withFetchWord]

@[simp] theorem State.withFetchWord_eip (s : State) (nbits w : Nat) : (s.withFetchWord nbits w).eip = s.eip := by
  simp [State.withFetchWord]

@[simp] theorem State.withFetchWord_mem (s : State) (nbits w : Nat) :
    (s.withFetchWord nbits w).mem = s.mem.storeBytes s.eip (tableWordBytes nbits w) := by
  simp [State.withFetchWord]

@[simp] theorem State.withFetchWord_eflags (s : State) (nbits w : Nat) :
    (s.withFetchWord nbits w).eflags = s.eflags := by
  simp [State.withFetchWord]

@[simp] theorem State.withFetchWord_status (s : State) (nbits w : Nat) :
    (s.withFetchWord nbits w).status = .running := by
  simp [State.withFetchWord]

/-- Inside memory, a fetch is the decoding of the bytes at `eip`. -/
theorem fetch_cases (s : State) :
    (s.mem.inBounds s.eip = false ∧ fetch s = .outOfRange) ∨
      (s.mem.inBounds s.eip = true ∧ ∃ r, decode (fetchBytes s) = .error r ∧
        fetch s = .failed (rejectKind r) (s.mem.readByte s.eip)) ∨
      (s.mem.inBounds s.eip = true ∧ ∃ i bs, decode (fetchBytes s) = .ok (i, bs) ∧ fetch s = .instr i) := by
  unfold fetch
  cases hb : s.mem.inBounds s.eip with
  | false => exact .inl ⟨rfl, rfl⟩
  | true =>
    refine .inr ?_
    cases hd : decode (fetchBytes s) with
    | error r => exact .inl ⟨rfl, r, rfl, rfl⟩
    | ok p => exact .inr ⟨rfl, p.1, p.2, rfl, rfl⟩

/-- A step is taken by a running state, and is the range halt, an error before the execute phase, or one instruction and
the sentinel test. -/
theorem step_cases (h : step s = .next t) :
    s.status = .running ∧
      ((s.mem.inBounds s.eip = false ∧ t = haltRange s) ∨
        (s.mem.inBounds s.eip = true ∧ ∃ r, decode (fetchBytes s) = .error r ∧
          t = raiseError (rejectKind r) (s.mem.readByte s.eip) s) ∨
        (s.mem.inBounds s.eip = true ∧ ∃ i bs u, decode (fetchBytes s) = .ok (i, bs) ∧ exec i s = .next u ∧
          t = sentinelTest u)) := by
  unfold step at h
  cases hn : noStep s.status with
  | some f => rw [hn] at h; cases h
  | none =>
    refine ⟨noStep_eq_none.mp hn, ?_⟩
    rw [hn] at h
    rcases fetch_cases s with ⟨hb, hf⟩ | ⟨hb, r, hd, hf⟩ | ⟨hb, i, bs, hd, hf⟩
    · simp only [hf] at h; cases h; exact .inl ⟨hb, rfl⟩
    · simp only [hf] at h; cases h; exact .inr (.inl ⟨hb, r, hd, rfl⟩)
    · simp only [hf] at h
      obtain ⟨u, hu, rfl⟩ := afterInstr_cases h
      exact .inr (.inr ⟨hb, i, bs, u, hd, hu, rfl⟩)

end Sys2Proof.Machine
end

