-- ==== Sys2Proof/Tests/Slice0.lean ====
section
/-! SUPPORT. The model's own tests. Expected values are the spec's: its encodings (30_encoding.md) and its worked
examples and vectors (95_test_vectors.md, cited by their ids). After them, for each statement with hypotheses, a state
and operands that meet them. -/

namespace Sys2Proof.Tests

open Sys2Proof.Machine

/-- What a step leads to, if anywhere. -/
def stepped (s : State) : Option State :=
  match step s with
  | .next t => some t
  | .fault _ => none
  | .refused _ => none

/-- What an instruction leads to, if anywhere. -/
def executed (i : Instr) (s : State) : Option State :=
  match exec i s with
  | .next t => some t
  | .fault _ => none
  | .refused _ => none

/-- The registers of the vectors: every one 0 except ESP = 0x8000. -/
def regs0 : RegFile := RegFile.constructed 0x8000

/-- A running state of the vectors' size with code at `eip` and registers `x`. -/
def at_ (eip : Word) (code : List Byte) (x : RegFile := regs0) : State :=
  { State.construct 0x10000 eip 0x8000 0 with
    regs := x, mem := (Memory.zeroed 0x10000).storeBytes eip code }

/-- The same with bytes at an address. -/
def with_ (s : State) (a : Word) (bs : List Byte) : State := { s with mem := s.mem.storeBytes a bs }

/-- The end of a vector "F(kind)": FAULTED at `eip0` with the opcode byte, all else as before. -/
def faults (s : State) (kind : ErrorKind) (op : Byte) : Bool :=
  stepped s == some { s with status := .faulted kind s.eip op }

/-! ### WellFormed: an ill-formed term for each check -/

/-- 30_encoding.md R54: mod = 0, rm = 4 has a SIB byte. -/
theorem test_wf_sib_missing : (Instr.addRm32R32 ⟨0, 1, 4, none, .none⟩).wf = false := by decide

/-- R54: mod = 3 has no SIB byte. -/
theorem test_wf_sib_extra : (Instr.movRm32R32 ⟨3, 1, 4, some 0x24, .none⟩).wf = false := by decide

/-- R54: mod = 1 has a disp8. -/
theorem test_wf_disp_missing : (Instr.movR32Rm32 ⟨1, 1, 5, none, .none⟩).wf = false := by decide

/-- R54: mod = 0, rm = 5 has a disp32, not a disp8. -/
theorem test_wf_disp8_wrong : (Instr.movRm32Imm32 ⟨0, 0, 5, none, .disp8 4⟩ 1).wf = false := by decide

/-- R54: mod = 0, rm = 3 has no displacement. -/
theorem test_wf_disp32_wrong : (Instr.addRm32R32 ⟨0, 0, 3, none, .disp32 4⟩).wf = false := by decide

/-- R49: SUB carries sub-opcode 5, INC sub-opcode 0. -/
theorem test_wf_sub_opcode :
    (Instr.subRm32Imm8 ⟨3, 0, 0, none, .none⟩ 5).wf = false ∧ (Instr.incRm32 ⟨3, 1, 0, none, .none⟩).wf = false := by
  decide

/-! ### Decode: words written out from the encodings -/

/-- R78, MV2: 10111 111, imm32 0x12345678 little-endian. -/
theorem test_decode_mov_r32_imm32 :
    decode [0b10111111, 0x78, 0x56, 0x34, 0x12] = .ok (.movR32Imm32 .edi 0x12345678, []) := by decide

/-- R82, AR4: 0x01, ModRM 00 001 101, disp32 0x100. -/
theorem test_decode_add :
    decode [0x01, 0b00001101, 0x00, 0x01, 0x00, 0x00] = .ok (.addRm32R32 ⟨0, 1, 5, none, .disp32 0x100⟩, []) := by
  decide

/-- R83, AR10: 0x83, ModRM 01 101 011, disp8 4, imm8 1. -/
theorem test_decode_sub :
    decode [0x83, 0b01101011, 0x04, 0x01] = .ok (.subRm32Imm8 ⟨1, 5, 3, none, .disp8 4⟩ 1, []) := by decide

/-- R79, MV3: 0x89, ModRM 11 100 101. -/
theorem test_decode_mov_rm32_r32 :
    decode [0x89, 0b11100101] = .ok (.movRm32R32 ⟨3, 4, 5, none, .none⟩, []) := by decide

/-- R80, MR13's group: 0x8B, ModRM 10 000 100, SIB, disp32: a SIB form decodes. -/
theorem test_decode_mov_r32_rm32 :
    decode [0x8B, 0b10000100, 0x24, 0x00, 0x01, 0x00, 0x00] =
      .ok (.movR32Rm32 ⟨2, 0, 4, some 0x24, .disp32 0x100⟩, []) := by
  decide

/-- R81, MV15: 0xC7, ModRM 11 001 001, imm32 0x11223344. -/
theorem test_decode_mov_rm32_imm32 :
    decode [0xC7, 0b11001001, 0x44, 0x33, 0x22, 0x11] =
      .ok (.movRm32Imm32 ⟨3, 1, 1, none, .none⟩ 0x11223344, []) := by
  decide

/-- R84, AR14: 0xFF, ModRM 11 000 111. -/
theorem test_decode_inc : decode [0xFF, 0b11000111] = .ok (.incRm32 ⟨3, 0, 7, none, .none⟩, []) := by decide

/-- R87, JP3: 0xE9, rel32 -0x100. -/
theorem test_decode_jmp_rel32 : decode [0xE9, 0x00, 0xFF, 0xFF, 0xFF] = .ok (.jmpRel32 (-0x100), []) := by decide

/-- R88, S-C: 0xEB, rel8 -2. -/
theorem test_decode_jmp_rel8 : decode [0xEB, 0xFE] = .ok (.jmpRel8 (-2), []) := by decide

/-- MR14: mod = 0, rm = 4 reads no disp32 whatever the SIB base; the four bytes stay. -/
theorem test_decode_sib_base5 :
    takeModRM [0x04, 0x25, 0x00, 0x20, 0x00, 0x00] =
      .ok (⟨0, 0, 4, some 0x25, .none⟩, [0x00, 0x20, 0x00, 0x00]) := by
  decide

/-- EX4, AR11, AR16: rejections by name. -/
theorem test_decode_rejects :
    decode [0x90] = .error (.unknownOpcode 0x90) ∧
      decode [0x83, 0xC0, 0x05] = .error (.unsupportedSubOpcode 0x83 0) ∧
      decode [0xFF, 0xC8] = .error (.unsupportedSubOpcode 0xFF 1) ∧ decode [0xB8, 0x01] = .error .truncated := by
  decide

/-- A table row's word: 83 28 is 0x2883, and its zero immediate follows. -/
theorem test_decode_table_word : decodeTableWord 16 0x2883 = some (.subRm32Imm8 ⟨0, 5, 0, none, .none⟩ 0) := by decide

/-- That word runs as the first instruction after reset: [0] - 0, three bytes on. -/
theorem test_first_after_reset :
    (stepped (State.reset.withFetchWord 16 0x2883)).map (fun t => (t.eip, t.status)) = some (0x1003, .running) := by
  decide

/-! ### One step each -/

/-- S-A: MOV EAX, 1 at 0. -/
theorem test_mov_r32_imm32 :
    (stepped (at_ 0 [0xB8, 0x01, 0x00, 0x00, 0x00])).map (fun t => (t.regs.eax, t.eip, t.status)) =
      some (1, 5, .running) := by
  decide

/-- MV5: a misaligned store, little-endian. -/
theorem test_mov_rm32_r32 :
    (stepped (at_ 0x100 [0x89, 0x05, 0x01, 0x20, 0x00, 0x00] { regs0 with eax := 0xAABBCCDD })).map
      (fun t => [t.mem.readByte 0x2000, t.mem.readByte 0x2001, t.mem.readByte 0x2002, t.mem.readByte 0x2003,
        t.mem.readByte 0x2004]) = some [0x00, 0xDD, 0xCC, 0xBB, 0xAA] := by
  decide

/-- MV6: the destination is the base register. -/
theorem test_mov_r32_rm32 :
    (stepped (with_ (at_ 0x100 [0x8B, 0x00] { regs0 with eax := 0x2000 }) 0x2000 [0x55])).map (·.regs.eax) =
      some 0x55 := by
  decide

/-- MV9: the effective address wraps. -/
theorem test_effective_address_wraps :
    (stepped (with_ (at_ 0x100 [0x8B, 0x85, 0x00, 0x00, 0x00, 0x80] { regs0 with ebp := 0x80002000 }) 0x2000
      [0x07])).map (·.regs.eax) = some 7 := by
  decide

/-- MV17, MV15: a dword to memory, length 10; the reg field is ignored. -/
theorem test_mov_rm32_imm32 :
    (stepped (at_ 0x100 [0xC7, 0x05, 0x00, 0x10, 0x00, 0x00, 0x78, 0x56, 0x34, 0x12])).map
      (fun t => (t.mem.readDword 0x1000, t.eip)) = some (0x12345678, 0x10A) ∧
    (stepped (at_ 0x100 [0xC7, 0xC9, 0x44, 0x33, 0x22, 0x11])).map (·.regs.ecx) = some 0x11223344 := by
  decide

/-- AR3: both operands are EAX. -/
theorem test_add_register :
    (stepped (at_ 0x100 [0x01, 0xC0] { regs0 with eax := 0x80000000 })).map (·.regs.eax) = some 0 := by
  decide

/-- AR4: the memory form. -/
theorem test_add_memory :
    (stepped (with_ (at_ 0x200 [0x01, 0x0D, 0x00, 0x01, 0x00, 0x00] { regs0 with ecx := 0x01010101 }) 0x100
      [0x44, 0x33, 0x22, 0x11])).map (fun t => (t.mem.readDword 0x100, t.eip)) = some (0x12233445, 0x206) := by
  decide

/-- AR7: imm8 0x80 is -128. -/
theorem test_sub_register :
    (stepped (at_ 0x100 [0x83, 0xE8, 0x80])).map (fun t => (t.regs.eax, t.eip)) = some (0x80, 0x103) := by
  decide

/-- AR10: a borrow through the dword. -/
theorem test_sub_memory :
    (stepped (at_ 0x100 [0x83, 0x6B, 0x04, 0x01] { regs0 with ebx := 0x2000 })).map (·.mem.readDword 0x2004) =
      some 0xFFFFFFFF := by
  decide

/-- AR13: INC wraps. -/
theorem test_inc_register :
    (stepped (at_ 0x100 [0xFF, 0xC0] { regs0 with eax := 0xFFFFFFFF })).map (·.regs.eax) = some 0 := by
  decide

/-- AR15: a carry into the next byte. -/
theorem test_inc_memory :
    (stepped (with_ (at_ 0x100 [0xFF, 0x05, 0x00, 0x20, 0x00, 0x00]) 0x2000 [0xFF])).map
      (fun t => (t.mem.readByte 0x2000, t.mem.readByte 0x2001)) = some (0x00, 0x01) := by
  decide

/-- JP4: a jump to 0 halts. -/
theorem test_jmp_rel32 :
    (stepped (at_ 0x10 [0xE9, 0xEB, 0xFF, 0xFF, 0xFF])).map (fun t => (t.eip, t.status)) =
      some (0, .haltedSentinel) := by
  decide

/-- S-C: a jump to itself. -/
theorem test_jmp_rel8 : stepped (at_ 0x10 [0xEB, 0xFE]) = some (at_ 0x10 [0xEB, 0xFE]) := by decide

/-- JP5, EX1: a jump to MEM_SIZE goes on, and the next fetch halts. -/
theorem test_range_halt :
    (stepped (at_ 0xFFF0 [0xE9, 0x0B, 0x00, 0x00, 0x00])).map (fun t => (t.eip, t.status)) =
      some (0x10000, .running) ∧
    (stepped (at_ 0x10000 [])).map (fun t => (t.eip, t.status)) = some (0x10000, .haltedRange) := by
  decide

/-- EX12: no further step in a terminal state. -/
theorem test_terminal : stepped { at_ 0x100 [0xB8] with status := .haltedSentinel } = none := by decide

/-- S-D, MV12, MV13, MV14: one of each error. -/
theorem test_errors :
    faults (at_ 0x100 [0x0F]) .unknownOpcode 0x0F = true ∧
      faults (at_ 0x100 [0x8B, 0x03] { regs0 with ebx := 0xFFFFFFFE }) .outOfBounds 0x8B = true ∧
      faults (at_ 0x100 [0x89, 0x03] { regs0 with ebx := 0xFFFD, eax := 7 }) .outOfBounds 0x89 = true ∧
      faults (at_ 0x100 [0x8B, 0x04, 0x24]) .notImplemented 0x8B = true := by
  decide

/-- EX5 to EX11: the order of the errors. -/
theorem test_error_order :
    faults (at_ 0xFFFF [0xFF]) .outOfBounds 0xFF = true ∧
      faults (at_ 0xFFFE [0x8B, 0x04]) .outOfBounds 0x8B = true ∧
      faults (at_ 0xFFFE [0x83, 0x2C]) .outOfBounds 0x83 = true ∧
      faults (at_ 0xFFFE [0x83, 0xC0]) .notImplemented 0x83 = true ∧
      faults (at_ 0xFFFE [0x83, 0xE8]) .outOfBounds 0x83 = true ∧
      faults (at_ 0xFFFA [0xC7, 0x04, 0x24, 0x01, 0x02, 0x03]) .outOfBounds 0xC7 = true ∧
      faults (at_ 0x100 [0x83, 0x2C, 0x24, 0x01]) .notImplemented 0x83 = true := by
  decide

/-- S-E: the 8-bit alias property and its further instances. -/
theorem test_aliases :
    ({ regs0 with eax := 0x11223344 }.set8 4 0xAB).eax = 0x1122AB44 ∧
      ({ regs0 with eax := 0x11223344 }.set8 0 0xCD).eax = 0x112233CD ∧
      ({ regs0 with ebx := 0xFFFFFFFF }.set8 7 0x00).ebx = 0xFFFF00FF ∧
      { regs0 with edx := 0x00005A00 }.get8 6 = 0x5A ∧ { regs0 with edx := 0x00005A00 }.get8 2 = 0x00 := by
  decide

/-- S-F: the snapshot after S-A. -/
theorem test_snapshot :
    (stepped (at_ 0 [0xB8, 0x01, 0x00, 0x00, 0x00])).map snapshot = some [1, 0, 0, 0, 0x8000, 0, 0, 0, 5] := by
  decide

/-- The modrm_decoder's port on MR12, `44 24 08`: M = 3, and OutOfBounds when the third byte is. -/
theorem test_modrm_port :
    (modrmPort ⟨0x44, 0x24, 0x08, 0, 0, 0, false, false, false, true, true, true⟩).len = 3 ∧
      (modrmPort ⟨0x44, 0x24, 0x08, 0, 0, 0, false, false, false, true, true, true⟩).disp = some 8 ∧
      (modrmPort ⟨0x44, 0x24, 0x08, 0, 0, 0, false, false, true, true, true, true⟩).err = some .outOfBounds := by
  decide

/-! ### Witnesses: what each statement's hypotheses ask for exists, clause by clause, at the ends of its ranges -/

theorem step_get (s : State) (h : (stepped s).isSome = true) : step s = .next ((stepped s).get h) := by
  revert h
  unfold stepped
  cases step s <;> intro h
  · rfl
  · cases h
  · cases h

theorem exec_get (i : Instr) (s : State) (h : (executed i s).isSome = true) :
    exec i s = .next ((executed i s).get h) := by
  revert h
  unfold executed
  cases exec i s <;> intro h
  · rfl
  · cases h
  · cases h

/-- EAX := [EAX], the register form and the memory form; `89 03` and `[EBX]` at the last dword and one past it. -/
def regForm : ModRM := ⟨3, 1, 0, none, .none⟩
def memForm : ModRM := ⟨0, 1, 3, none, .none⟩
def sibForm : ModRM := ⟨1, 0, 4, some 0x24, .disp8 8⟩
def ebxAt (v : Word) : State := at_ 0x100 [0x89, 0x0B] { regs0 with ebx := v, ecx := 7 }

/-- The operand forms of every instruction with a ModRM byte: register; memory, the last dword inside; one past it. -/
theorem operand_forms :
    (regForm.wf = true ∧ regForm.mod = 3#2) ∧
      (resolve (ebxAt 0xFFFC).regs memForm = .ok (.memory 0xFFFC) ∧ (ebxAt 0xFFFC).DwordInside 0xFFFC) ∧
      (resolve (ebxAt 0xFFFD).regs memForm = .ok (.memory 0xFFFD) ∧ ¬(ebxAt 0xFFFD).DwordInside 0xFFFD) := by
  decide

theorem witness_MovRm32R32MovesTheRegister :
    (regForm.wf = true ∧ regForm.mod = 3#2) ∧
      (resolve (ebxAt 0xFFFC).regs memForm = .ok (.memory 0xFFFC) ∧ (ebxAt 0xFFFC).DwordInside 0xFFFC) ∧
      (resolve (ebxAt 0xFFFD).regs memForm = .ok (.memory 0xFFFD) ∧ ¬(ebxAt 0xFFFD).DwordInside 0xFFFD) :=
  operand_forms

theorem witness_MovR32Rm32LoadsTheRegister :
    (regForm.wf = true ∧ regForm.mod = 3#2) ∧
      (resolve (ebxAt 0xFFFC).regs memForm = .ok (.memory 0xFFFC) ∧ (ebxAt 0xFFFC).DwordInside 0xFFFC) ∧
      (resolve (ebxAt 0xFFFD).regs memForm = .ok (.memory 0xFFFD) ∧ ¬(ebxAt 0xFFFD).DwordInside 0xFFFD) :=
  operand_forms

theorem witness_MovRm32Imm32MovesTheImmediate :
    (regForm.wf = true ∧ regForm.mod = 3#2) ∧
      (resolve (ebxAt 0xFFFC).regs memForm = .ok (.memory 0xFFFC) ∧ (ebxAt 0xFFFC).DwordInside 0xFFFC) ∧
      (resolve (ebxAt 0xFFFD).regs memForm = .ok (.memory 0xFFFD) ∧ ¬(ebxAt 0xFFFD).DwordInside 0xFFFD) :=
  operand_forms

theorem witness_AddRm32R32AddsModulo :
    (regForm.wf = true ∧ regForm.mod = 3#2) ∧
      (resolve (ebxAt 0xFFFC).regs memForm = .ok (.memory 0xFFFC) ∧ (ebxAt 0xFFFC).DwordInside 0xFFFC) ∧
      (resolve (ebxAt 0xFFFD).regs memForm = .ok (.memory 0xFFFD) ∧ ¬(ebxAt 0xFFFD).DwordInside 0xFFFD) :=
  operand_forms

theorem witness_SubRm32Imm8SubtractsTheSignedByte :
    (regForm.wf = true ∧ regForm.mod = 3#2) ∧
      (resolve (ebxAt 0xFFFC).regs memForm = .ok (.memory 0xFFFC) ∧ (ebxAt 0xFFFC).DwordInside 0xFFFC) ∧
      (resolve (ebxAt 0xFFFD).regs memForm = .ok (.memory 0xFFFD) ∧ ¬(ebxAt 0xFFFD).DwordInside 0xFFFD) :=
  operand_forms

theorem witness_IncRm32AddsOne :
    (regForm.wf = true ∧ regForm.mod = 3#2) ∧
      (resolve (ebxAt 0xFFFC).regs memForm = .ok (.memory 0xFFFC) ∧ (ebxAt 0xFFFC).DwordInside 0xFFFC) ∧
      (resolve (ebxAt 0xFFFD).regs memForm = .ok (.memory 0xFFFD) ∧ ¬(ebxAt 0xFFFD).DwordInside 0xFFFD) :=
  operand_forms

/-- A sound state at each way a step can go: an instruction, a jump to 0, an error, a range halt. -/
def ways : List State :=
  [at_ 0x100 [0xFF, 0xC0], at_ 0 [0xEB, 0xFE], at_ 0xFFFF [0xFF], at_ 0x10000 []]

theorem ways_step : ∀ s ∈ ways, s.mem.wf ∧ s.status = .running ∧ (stepped s).isSome = true := by decide

/-- Every one of them meets the invariant and has a step. -/
theorem witness_EveryStepKeepsTheInvariant : ∀ s ∈ ways, s.Inv ∧ ∃ t, step s = .next t := by
  intro s hs
  obtain ⟨hw, hr, h⟩ := ways_step s hs
  exact ⟨⟨hw, by simp [State.StatusCoherent, hr]⟩, _, step_get s h⟩

theorem witness_StepKeepsTheCapacity : ∀ s ∈ ways, ∃ t, step s = .next t := fun s hs =>
  (witness_EveryStepKeepsTheInvariant s hs).2

theorem witness_EflagsIsInert : ∀ s ∈ ways, ∃ t, step s = .next t := fun s hs =>
  (witness_EveryStepKeepsTheInvariant s hs).2

/-- MEM_SIZE at the two ends of its domain. -/
theorem witness_ConstructionMeetsTheInvariant :
    (1 ≤ 1 ∧ 1 ≤ 2 ^ 32) ∧ (1 ≤ 2 ^ 32 ∧ 2 ^ 32 ≤ 2 ^ 32) := by decide

theorem witness_Set32ReplacesExactlyItsSlot : Reg32.edi ≠ Reg32.eax := by decide

/-- Ids 3 and 4, where the two clauses meet, and 7. -/
theorem witness_Get8ReadsItsAliasByte : (3#3).toNat < 4 ∧ 4 ≤ (4#3).toNat ∧ 4 ≤ (7#3).toNat := by decide

theorem witness_Set8PreservesTheOtherBits :
    (15 < 32 ∧ Reg32.ecx ≠ if (4#3).toNat < 4 then Reg32.ofId 4#3 else Reg32.ofId (4#3 - 4#3)) := by decide

theorem witness_AliasesNeverReachTheUpperSlots :
    Reg32.esp ∈ [Reg32.esp, .ebp, .esi, .edi] ∧ Reg32.edi ∈ [Reg32.esp, .ebp, .esi, .edi] := by decide

theorem witness_MixedWidthAccessSeesTheByteArray : (Memory.zeroed 0x10000).wf ∧ 0 < 4 ∧ 3 < 4 := by decide

/-- The bytes just below and just above a dword are outside it. -/
theorem witness_WriteChangesOnlyTheBytesItNames :
    (Memory.zeroed 0x10000).wf ∧ (∀ k : Nat, k < 4 → 0xFFF#32 ≠ 0x1000#32 + BitVec.ofNat 32 k) ∧
      ∀ k : Nat, k < 4 → 0x1004#32 ≠ 0x1000#32 + BitVec.ofNat 32 k := by
  decide

/-- The last byte and the first one outside, the last dword and the first one outside, and one that wraps to 0. -/
theorem witness_EveryByteOfAnAccessIsChecked :
    ((0xFFFF#32).toNat < (ebxAt 0).mem.capacity ∧ (ebxAt 0).mem.capacity ≤ (0x10000#32).toNat) ∧
      (ebxAt 0).DwordInside 0xFFFC ∧ ¬(ebxAt 0).DwordInside 0xFFFD ∧ ¬(ebxAt 0).DwordInside 0xFFFFFFFE := by
  decide

/-- Opcode bytes beside the mapped ranges. -/
theorem witness_DispatchFollowsTheTable :
    ∀ op ∈ [0x00#8, 0xB7, 0xC0, 0xFE],
      (op < 0xB8#8 ∨ 0xBF#8 < op) ∧ op ∉ [0x01#8, 0x83, 0x89, 0x8B, 0xC7, 0xFF, 0xE9, 0xEB] := by
  decide

/-- An unmapped byte, the last byte of memory. -/
theorem witness_UnmappedOpcodeRaisesUnknownOpcode :
    (at_ 0xFFFF [0xB7]).status = .running ∧ (at_ 0xFFFF [0xB7]).eip.toNat < (at_ 0xFFFF [0xB7]).mem.capacity ∧
      ((at_ 0xFFFF [0xB7]).mem.readByte (at_ 0xFFFF [0xB7]).eip < 0xB8#8 ∨
        0xBF#8 < (at_ 0xFFFF [0xB7]).mem.readByte (at_ 0xFFFF [0xB7]).eip) ∧
      (at_ 0xFFFF [0xB7]).mem.readByte (at_ 0xFFFF [0xB7]).eip ∉ [0x01#8, 0x83, 0x89, 0x8B, 0xC7, 0xFF, 0xE9, 0xEB] := by
  decide

/-- `83 C0 05` at the end of memory, and `FF C8` there. -/
theorem witness_UnlistedSubOpcodeRaisesNotImplemented :
    ((at_ 0xFFFD [0x83, 0xC0, 0x05]).status = .running ∧ (⟨3, 0, 0, none, .none⟩ : ModRM).wf = true ∧
      fetchBytes (at_ 0xFFFD [0x83, 0xC0, 0x05]) = 0x83#8 :: (encodeModRM ⟨3, 0, 0, none, .none⟩ ++ 0x05#8 :: [])) ∧
    ((at_ 0xFFFE [0xFF, 0xC8]).status = .running ∧ (⟨3, 1, 0, none, .none⟩ : ModRM).wf = true ∧
      fetchBytes (at_ 0xFFFE [0xFF, 0xC8]) = 0xFF#8 :: (encodeModRM ⟨3, 1, 0, none, .none⟩ ++ [])) := by
  decide

theorem witness_DecodeGivesBackWhatWasEncoded :
    (Instr.subRm32Imm8 ⟨1, 5, 4, some 0x24, .disp8 8⟩ 0xFF).wf = true ∧ (Instr.jmpRel8 0x80).wf = true := by decide

theorem witness_DecodeReadsOnlyEncodings :
    decode [0x01, 0xC8, 0x90] = .ok (.addRm32R32 regForm, [0x90]) := by decide

/-- One group of each class of the table: MR3, MR11, MR4, MR6, MR12, MR9, MR13, MR2. -/
theorem witness_ModRMGroupFollowsTheTable :
    takeModRM [0x03] = .ok (⟨0, 0, 3, none, .none⟩, []) ∧
      takeModRM [0x04, 0x24] = .ok (⟨0, 0, 4, some 0x24, .none⟩, []) ∧
      takeModRM [0x05, 0x00, 0x20, 0x00, 0x00] = .ok (⟨0, 0, 5, none, .disp32 0x2000⟩, []) ∧
      takeModRM [0x43, 0xFC] = .ok (⟨1, 0, 3, none, .disp8 0xFC⟩, []) ∧
      takeModRM [0x44, 0x24, 0x08] = .ok (⟨1, 0, 4, some 0x24, .disp8 8⟩, []) ∧
      takeModRM [0x8B, 0xFC, 0x00, 0x00, 0x00] = .ok (⟨2, 1, 3, none, .disp32 0xFC⟩, []) ∧
      takeModRM [0x84, 0x24, 0x00, 0x01, 0x00, 0x00] = .ok (⟨2, 0, 4, some 0x24, .disp32 0x100⟩, []) ∧
      takeModRM [0xE4] = .ok (⟨3, 4, 4, none, .none⟩, []) := by
  decide

/-- With a ModRM byte and without one. -/
theorem witness_ConsumedBytesAreTheLength :
    decode (0x83#8 :: 0x6B#8 :: [0x04, 0x01]) = .ok (.subRm32Imm8 ⟨1, 5, 3, none, .disp8 4⟩ 1, []) ∧
      decode (0xEB#8 :: 0xFE#8 :: []) = .ok (.jmpRel8 0xFE, []) := by
  decide

theorem witness_ResolveFollowsItsCases :
    regForm.mod = 3#2 ∧ (sibForm.mod ≠ 3#2 ∧ sibForm.rm = 4#3) ∧
      (let d : ModRM := ⟨0, 0, 5, none, .disp32 0x2000⟩; d.mod = 0#2 ∧ d.rm = 5#3 ∧ d.disp = .disp32 0x2000) ∧
      (memForm.mod = 0#2 ∧ memForm.rm ≠ 4#3 ∧ memForm.rm ≠ 5#3) ∧
      (let d : ModRM := ⟨1, 0, 5, none, .disp8 0⟩; d.mod = 1#2 ∧ d.rm ≠ 4#3 ∧ d.disp = .disp8 0) ∧
      (let d : ModRM := ⟨2, 0, 5, none, .disp32 0x80000000⟩; d.mod = 2#2 ∧ d.rm ≠ 4#3 ∧ d.disp = .disp32 0x80000000) := by
  decide

theorem witness_SibFormsRaiseNotImplemented :
    (SibForm 0x44 ∧ takeModRM (0x44#8 :: 0x24#8 :: [0x08]) = .ok (sibForm, [])) ∧
      sibForm.mod ≠ 3#2 ∧ sibForm.rm = 4#3 := by
  decide

/-- A jump to 0, and a jump to MEM_SIZE, for both forms. -/
theorem witness_JumpTargetsAreCheckedAtTheNextFetch :
    ((at_ 0 [0xEB, 0xFE]).status = .running ∧ (∃ rest, fetchBytes (at_ 0 [0xEB, 0xFE]) = 0xEB#8 :: 0xFE#8 :: rest) ∧
      (0#32 : Word) = (at_ 0 [0xEB, 0xFE]).eip + 2#32 + sext32 0xFE) ∧
    ((at_ 0xFFF0 [0xE9, 0x0B]).status = .running ∧
      (∃ rest, fetchBytes (at_ 0xFFF0 [0xE9, 0x0B]) = 0xE9#8 :: (dwordBytes 0x0B ++ rest)) ∧
      (0x10000#32 : Word) = (at_ 0xFFF0 [0xE9, 0x0B]).eip + 5#32 + 0x0B ∧ (0x10000#32 : Word) ≠ 0#32 ∧
      (at_ 0xFFF0 [0xE9, 0x0B]).mem.capacity ≤ (0x10000#32).toNat) :=
  ⟨⟨rfl, ⟨_, rfl⟩, by decide⟩, rfl, ⟨_, rfl⟩, by decide, by decide, by decide⟩

/-- Each of the seven forms goes on somewhere. -/
theorem witness_RegisterDestinationFrame :
    (∃ t, exec (.movR32Imm32 .edi 7) (ebxAt 0) = .next t) ∧ (∃ t, exec (.movR32Rm32 memForm) (ebxAt 0xFFFC) = .next t) ∧
      regForm.mod = 3#2 ∧ (∃ t, exec (.movRm32R32 regForm) (ebxAt 0) = .next t) ∧
      (∃ t, exec (.movRm32Imm32 regForm 7) (ebxAt 0) = .next t) ∧ (∃ t, exec (.addRm32R32 regForm) (ebxAt 0) = .next t) ∧
      (∃ t, exec (.subRm32Imm8 regForm 7) (ebxAt 0) = .next t) ∧ (∃ t, exec (.incRm32 regForm) (ebxAt 0) = .next t) :=
  ⟨⟨_, exec_get _ _ (by decide)⟩, ⟨_, exec_get _ _ (by decide)⟩, by decide, ⟨_, exec_get _ _ (by decide)⟩,
    ⟨_, exec_get _ _ (by decide)⟩, ⟨_, exec_get _ _ (by decide)⟩, ⟨_, exec_get _ _ (by decide)⟩,
    ⟨_, exec_get _ _ (by decide)⟩⟩

/-- Each of the five storing forms stores to the last dword, and goes on. -/
theorem witness_MemoryDestinationFrame :
    (ebxAt 0xFFFC).mem.wf ∧ resolve (ebxAt 0xFFFC).regs memForm = .ok (.memory 0xFFFC) ∧
      (∃ t, exec (.movRm32R32 memForm) (ebxAt 0xFFFC) = .next t) ∧
      (∃ t, exec (.movRm32Imm32 memForm 7) (ebxAt 0xFFFC) = .next t) ∧
      (∃ t, exec (.addRm32R32 memForm) (ebxAt 0xFFFC) = .next t) ∧
      (∃ t, exec (.subRm32Imm8 memForm 7) (ebxAt 0xFFFC) = .next t) ∧
      (∃ t, exec (.incRm32 memForm) (ebxAt 0xFFFC) = .next t) :=
  ⟨by decide, by decide, ⟨_, exec_get _ _ (by decide)⟩, ⟨_, exec_get _ _ (by decide)⟩, ⟨_, exec_get _ _ (by decide)⟩,
    ⟨_, exec_get _ _ (by decide)⟩, ⟨_, exec_get _ _ (by decide)⟩⟩

theorem witness_JumpsLeaveRegistersAndMemory :
    (∃ t, exec (.jmpRel32 0) (ebxAt 0) = .next t) ∧ (∃ t, exec (.jmpRel8 0) (ebxAt 0) = .next t) :=
  ⟨⟨_, exec_get _ _ (by decide)⟩, ⟨_, exec_get _ _ (by decide)⟩⟩

theorem witness_StepRunsTheDecodedInstruction :
    (at_ 0xFFFE [0x01, 0xC8]).status = .running ∧
      decode (fetchBytes (at_ 0xFFFE [0x01, 0xC8])) = .ok (.addRm32R32 regForm, []) := by
  decide

/-- MOV EAX, 0x04030201 over the top of a full address space: `B8 01` at 0xFFFFFFFE, the rest at 0. -/
def wrapping : State :=
  { State.construct (2 ^ 32) 0xFFFFFFFE 0 0 with
    mem := (Memory.zeroed (2 ^ 32)).storeBytes 0xFFFFFFFE [0xB8, 0x01, 0x02, 0x03, 0x04] }

theorem witness_EncodedInstructionInMemoryRuns :
    wrapping.status = .running ∧ (Instr.movR32Imm32 .eax 0x04030201).wf = true ∧
      wrapping.InstrInside (Instr.movR32Imm32 .eax 0x04030201).length ∧
      ∀ k : Nat, k < (Instr.movR32Imm32 .eax 0x04030201).length →
        (encode (.movR32Imm32 .eax 0x04030201))[k]? = some (wrapping.instrByte k) := by
  decide

theorem witness_RangeHaltBeforeTheFetch :
    (at_ 0x10000 []).status = .running ∧ (at_ 0x10000 []).mem.capacity ≤ (at_ 0x10000 []).eip.toNat := by decide

/-- A completed jump to 0, a completed jump elsewhere, an error, and a range halt. -/
theorem witness_SentinelHaltAfterACompletedInstruction :
    ((at_ 0 [0xEB, 0xFE]).status = .running ∧
      (∃ rest, decode (fetchBytes (at_ 0 [0xEB, 0xFE])) = .ok (.jmpRel8 0xFE, rest)) ∧
      (executed (.jmpRel8 0xFE) (at_ 0 [0xEB, 0xFE])).map (fun t => (t.status, t.eip)) = some (.running, 0#32)) ∧
    (executed (.jmpRel8 0xFE) (at_ 0x10 [0xEB, 0xFE])).map (fun t => (t.status, t.eip)) = some (.running, 0x10#32) ∧
    (executed (.movRm32R32 memForm) (ebxAt 0xFFFD)).map (·.status) = some (.faulted .outOfBounds 0x100 0x89) ∧
    ((at_ 0x10000 []).mem.capacity ≤ (at_ 0x10000 []).eip.toNat ∧ (stepped (at_ 0x10000 [])).isSome = true) :=
  ⟨⟨rfl, ⟨_, rfl⟩, by decide⟩, by decide, by decide, by decide⟩

theorem witness_ErrorChangesOnlyTheStatus :
    ∃ t, step (at_ 0xFFFF [0xFF]) = .next t ∧ t.status = .faulted .outOfBounds 0xFFFF 0xFF :=
  ⟨_, step_get _ (by decide), by decide⟩

/-- EX4, EX5, EX8, EX9, EX11, MV11 and a completing instruction: one state for each clause, all running and at an `eip`
inside memory. -/
theorem witness_TheFirstErrorInOrderIsRaised :
    (∀ s ∈ [at_ 0xFFFF [0x90], at_ 0xFFFF [0xFF], at_ 0xFFFE [0x83, 0xC0], at_ 0xFFFE [0x83, 0xE8],
        at_ 0x100 [0x83, 0x2C, 0x24, 0x01], at_ 0x100 [0x8B, 0x03] { regs0 with ebx := 0xFFFD },
        at_ 0x100 [0x8B, 0x03] { regs0 with ebx := 0xFFFC }],
      s.status = .running ∧ s.eip.toNat < s.mem.capacity) ∧
    dispatch ((at_ 0xFFFF [0x90]).instrByte 0) = none ∧
    (let s := at_ 0xFFFF [0xFF];
      dispatch (s.instrByte 0) = some .groupFF ∧ ¬s.InstrInside (1 + groupLength (s.instrByte 1))) ∧
    (let s := at_ 0xFFFE [0x83, 0xC0];
      dispatch (s.instrByte 0) = some .group83 ∧ s.InstrInside (1 + groupLength (s.instrByte 1)) ∧
        SubOpcodeUnlisted .group83 (s.instrByte 1)) ∧
    (let s := at_ 0xFFFE [0x83, 0xE8];
      dispatch (s.instrByte 0) = some .group83 ∧ s.InstrInside (1 + groupLength (s.instrByte 1)) ∧
        ¬SubOpcodeUnlisted .group83 (s.instrByte 1) ∧ ¬s.InstrInside (1 + groupLength (s.instrByte 1) + 1)) ∧
    (let s := at_ 0x100 [0x83, 0x2C, 0x24, 0x01];
      dispatch (s.instrByte 0) = some .group83 ∧ s.InstrInside (1 + groupLength (s.instrByte 1) + 1) ∧
        ¬SubOpcodeUnlisted .group83 (s.instrByte 1) ∧ SibForm (s.instrByte 1)) ∧
    (let s := at_ 0x100 [0x8B, 0x03] { regs0 with ebx := 0xFFFD };
      dispatch (s.instrByte 0) = some .movR32Rm32 ∧ s.InstrInside (1 + groupLength (s.instrByte 1) + 0) ∧
        ¬SubOpcodeUnlisted .movR32Rm32 (s.instrByte 1) ∧ MemoryForm (s.instrByte 1) ∧ ¬s.DwordInside s.dataAddress) ∧
    (let s := at_ 0x100 [0x8B, 0x03] { regs0 with ebx := 0xFFFC };
      dispatch (s.instrByte 0) = some .movR32Rm32 ∧ s.InstrInside (1 + groupLength (s.instrByte 1) + 0) ∧
        ¬SubOpcodeUnlisted .movR32Rm32 (s.instrByte 1) ∧ ¬SibForm (s.instrByte 1) ∧ s.DwordInside s.dataAddress) :=
  ⟨by decide, by decide, by decide, by decide, by decide, by decide, by decide, by decide⟩

/-- An ADD, a JMP rel32 and a JMP rel8. -/
theorem witness_EipAdvancesByTheLength :
    (∃ t, (at_ 0xFFFE [0x01, 0xC8]).status = .running ∧
      decode (fetchBytes (at_ 0xFFFE [0x01, 0xC8])) = .ok (.addRm32R32 regForm, []) ∧
      (∀ rel, Instr.addRm32R32 regForm ≠ .jmpRel32 rel) ∧ (∀ rel, Instr.addRm32R32 regForm ≠ .jmpRel8 rel) ∧
      step (at_ 0xFFFE [0x01, 0xC8]) = .next t ∧ t.status = .running) ∧
    (∃ t, decode (fetchBytes (at_ 0xFFFB [0xE9, 0x0B])) = .ok (.jmpRel32 0x0B, []) ∧
      step (at_ 0xFFFB [0xE9, 0x0B]) = .next t ∧ t.status = .running) ∧
    (∃ t, decode (fetchBytes (at_ 0xFFFE [0xEB, 0x80])) = .ok (.jmpRel8 0x80, []) ∧
      step (at_ 0xFFFE [0xEB, 0x80]) = .next t ∧ t.status = .running) :=
  ⟨⟨_, by decide, by decide, by simp, by simp, step_get _ (by decide), by decide⟩,
    ⟨_, by decide, step_get _ (by decide), by decide⟩, ⟨_, by decide, step_get _ (by decide), by decide⟩⟩

/-- An instruction at 0x100 with EBX as its base. -/
def storingAt (bs : List Byte) (ebx : Word) : State := at_ 0x100 bs { regs0 with ebx := ebx }

/-- Each of the five storing forms, onto its own last byte and the first three of the next instruction: the third byte
of the next fetch is the store's last, and the fourth is none of the store's. -/
theorem witness_StoreIsSeenByTheNextFetch :
    (∃ t, (storingAt [0x89, 0x0B] 0x101).mem.wf ∧ (storingAt [0x89, 0x0B] 0x101).status = .running ∧
      step (storingAt [0x89, 0x0B] 0x101) = .next t ∧ t.status = .running ∧
      resolve (storingAt [0x89, 0x0B] 0x101).regs memForm = .ok (.memory 0x101) ∧
      (∃ rest, decode (fetchBytes (storingAt [0x89, 0x0B] 0x101)) = .ok (.movRm32R32 memForm, rest)) ∧
      2 < maxInstrBytes ∧ t.InstrInside maxInstrBytes ∧ t.eip + BitVec.ofNat 32 2 = 0x101 + BitVec.ofNat 32 3 ∧
      ¬DwordCovers 0x101 (t.eip + BitVec.ofNat 32 3)) ∧
    (∃ t, step (storingAt [0xC7, 0x0B, 0xEB, 0xFE, 0x00, 0x00] 0x105) = .next t ∧ t.status = .running ∧
      ∃ rest, decode (fetchBytes (storingAt [0xC7, 0x0B, 0xEB, 0xFE, 0x00, 0x00] 0x105)) =
        .ok (.movRm32Imm32 memForm 0xFEEB, rest)) ∧
    (∃ t, step (storingAt [0x01, 0x0B] 0x101) = .next t ∧ t.status = .running ∧
      ∃ rest, decode (fetchBytes (storingAt [0x01, 0x0B] 0x101)) = .ok (.addRm32R32 memForm, rest)) ∧
    (∃ t, step (storingAt [0x83, 0x2B, 0x01] 0x102) = .next t ∧ t.status = .running ∧
      ∃ rest, decode (fetchBytes (storingAt [0x83, 0x2B, 0x01] 0x102)) =
        .ok (.subRm32Imm8 { memForm with regOrOpcode := 5 } 1, rest)) ∧
    (∃ t, step (storingAt [0xFF, 0x03] 0x101) = .next t ∧ t.status = .running ∧
      ∃ rest, decode (fetchBytes (storingAt [0xFF, 0x03] 0x101)) = .ok (.incRm32 { memForm with regOrOpcode := 0 }, rest)) :=
  ⟨⟨_, by decide, by decide, step_get _ (by decide), by decide, by decide, ⟨_, rfl⟩, by decide, by decide, by decide,
      by decide⟩,
    ⟨_, step_get _ (by decide), by decide, _, rfl⟩, ⟨_, step_get _ (by decide), by decide, _, rfl⟩,
    ⟨_, step_get _ (by decide), by decide, _, rfl⟩, ⟨_, step_get _ (by decide), by decide, _, rfl⟩⟩

theorem witness_AluResultsAreExactModulo :
    OpKind.movRm32R32 ∈ [OpKind.movR32Imm32 .eax, .movRm32R32, .movR32Rm32, .movRm32Imm32] ∧
      OpKind.jmpRel8 ∈ [OpKind.jmpRel32, .jmpRel8] := by
  decide

/-- No write, a 32-bit write and an alias write. -/
theorem witness_RegisterPortsCarryTheContracts :
    (let p : RegPortIn := ⟨0, 0, 0, true, 1, 7, false, 0, 0⟩; p.wEn = true ∧ p.w8En = false) ∧
      (let p : RegPortIn := ⟨0, 0, 0, false, 1, 7, true, 4, 0xAB⟩; p.wEn = false ∧ p.w8En = true) ∧
      (let p : RegPortIn := ⟨0, 0, 0, false, 1, 7, false, 0, 0⟩; p.wEn = false ∧ p.w8En = false) := by
  decide

/-- An access out of bounds; a read; a write of each size to the end of memory, whose last byte is below the end and
whose neighbour below is not written. -/
theorem witness_MemoryPortPerformsTheAccess :
    (Memory.zeroed 0x10000).wf ∧ (memPortRead (Memory.zeroed 0x10000) ⟨0xFFFD, .four, true, 7⟩).oob = true ∧
      ((memPortRead (Memory.zeroed 0x10000) ⟨0xFFFC, .four, false, 7⟩).oob = false ∧
        (⟨0xFFFC, .four, false, 7⟩ : MemPortIn).we = false) ∧
      ((memPortRead (Memory.zeroed 0x10000) ⟨0xFFFF, .one, true, 7⟩).oob = false ∧
        (⟨0xFFFF, .one, true, 7⟩ : MemPortIn).we = true) ∧
      (memPortRead (Memory.zeroed 0x10000) ⟨0xFFFC, .four, true, 7⟩).oob = false ∧
      ∀ k : Nat, k < 4 → (0xFFFB#32 : Word) ≠ 0xFFFC#32 + BitVec.ofNat 32 k := by
  decide

theorem witness_ModRMPortAgreesWithTheDecoder :
    (modrmPort ⟨0x44, 0x24, 0x08, 0, 0, 0, false, false, false, true, true, true⟩).err = none ∧
      (modrmPort ⟨0x44, 0x24, 0x08, 0, 0, 0, false, false, true, true, true, true⟩).err ≠ none := by
  decide

theorem witness_EacPortResolvesTheOperand :
    resolve regs0 ⟨1, 0, 5, none, .disp8 0xFC⟩ = .ok (.memory 0xFFFFFFFC) ∧
      resolve regs0 sibForm = .error .notImplemented := by
  decide

/-- A register in the opcode; an unlisted sub-opcode of each group; a listed one. -/
theorem witness_DecoderPortReportsTheDecodersErrors :
    (decoderPort 0xBF none).kind = some (.movR32Imm32 .edi) ∧
      ((⟨3, 0, 0, none, .none⟩ : ModRM).wf = true ∧ (decoderPort 0x83 none).hasModRM = true ∧
        (decoderPort 0x83 (some 0)).err = some .notImplemented) ∧
      ((⟨3, 7, 0, none, .none⟩ : ModRM).wf = true ∧ (decoderPort 0xFF none).hasModRM = true ∧
        (decoderPort 0xFF (some 7)).err = some .notImplemented) ∧
      (decoderPort 0x83 (some 5)).err = none ∧ (decoderPort 0xFF (some 0)).err = none := by
  decide

/-- An image that fills memory to its last byte, and one that does not fit by one byte. -/
theorem witness_ImageLoadingCopiesTheImage :
    (ebxAt 0).mem.wf ∧ 0xFFFE + [0xEB#8, 0xFE#8].length ≤ (ebxAt 0).mem.capacity ∧
      (ebxAt 0).mem.capacity < 0xFFFF + [0xEB#8, 0xFE#8].length := by
  decide

/-- The bytes placed end at the last byte of memory. -/
theorem witness_PlacedWordIsRunByTheNextStep :
    (at_ 0xFFF5 []).mem.wf ∧ (at_ 0xFFF5 []).InstrInside maxInstrBytes ∧
      decodeTableWord 16 0xC8FF = none ∧ decodeTableWord 16 0xC0FF = some (.incRm32 ⟨3, 0, 0, none, .none⟩) := by
  decide

end Sys2Proof.Tests
end

section
/-! PROOFS. The register file's 8-bit aliases (10_state.md R16 to R18): each is one byte of its owning register, and
a write of it is described bit by bit. -/

namespace Sys2Proof.Machine

/-- The register an 8-bit id lies in (10_state.md R17): slot `id` or slot `id - 4`. -/
def aliasOwner (id : BitVec 3) : Reg32 :=
  if id.toNat < 4 then Reg32.ofId id else Reg32.ofId (id - 4#3)

/-- The bit of its owner an 8-bit id begins at (10_state.md R17). -/
def aliasLow (id : BitVec 3) : Nat :=
  if id.toNat < 4 then 0 else 8

/-! ### Reading through the aliases -/

theorem RegFile.get8_eq_extractLsb' (x : RegFile) (id : BitVec 3) :
    x.get8 id = (x.get32 (aliasOwner id)).extractLsb' (aliasLow id) 8 := by
  unfold RegFile.get8 aliasOwner aliasLow
  split <;> rfl

theorem RegFile.toNat_get8 (x : RegFile) (id : BitVec 3) :
    (x.get8 id).toNat = (x.get32 (aliasOwner id)).toNat / 2 ^ aliasLow id % 256 := by
  rw [RegFile.get8_eq_extractLsb', BitVec.extractLsb'_toNat, Nat.shiftRight_eq_div_pow]

theorem RegFile.getLsbD_get8 (x : RegFile) (id : BitVec 3) {i : Nat} (hi : i < 8) :
    (x.get8 id).getLsbD i = (x.get32 (aliasOwner id)).getLsbD (aliasLow id + i) := by
  simp [RegFile.get8_eq_extractLsb', hi]

/-! ### Writing through the aliases -/

/-- The word `set8` writes back (10_state.md R18): `w` with `v` in place of the byte `id` names. -/
def withAliasByte (w : Word) (id : BitVec 3) (v : Byte) : Word :=
  if id.toNat < 4 then w.extractLsb' 8 24 ++ v
  else w.extractLsb' 16 16 ++ v ++ w.extractLsb' 0 8

theorem RegFile.set8_eq_set32 (x : RegFile) (id : BitVec 3) (v : Byte) :
    x.set8 id v = x.set32 (aliasOwner id) (withAliasByte (x.get32 (aliasOwner id)) id v) := by
  unfold RegFile.set8 aliasOwner withAliasByte
  split <;> rfl

/-- `set8`'s word for ids 0..3: the byte at bits [7:0], the other 24 bits kept. -/
theorem getLsbD_append_low (w : Word) (v : Byte) {j : Nat} (hj : j < 32) :
    (w.extractLsb' 8 24 ++ v).getLsbD j = if j < 8 then v.getLsbD j else w.getLsbD j := by
  rw [BitVec.getLsbD_append]
  split
  · rfl
  · rw [BitVec.getLsbD_extractLsb', decide_eq_true (by omega), Bool.true_and, Nat.add_sub_cancel' (by omega)]

/-- `set8`'s word for ids 4..7: the byte at bits [15:8], the other 24 bits kept. -/
theorem getLsbD_append_second (w : Word) (v : Byte) {j : Nat} (hj : j < 32) :
    (w.extractLsb' 16 16 ++ v ++ w.extractLsb' 0 8).getLsbD j =
      if 8 ≤ j ∧ j < 16 then v.getLsbD (j - 8) else w.getLsbD j := by
  rw [BitVec.getLsbD_append, BitVec.getLsbD_append]
  by_cases hlow : j < 8
  · simp [hlow]
  by_cases hmid : j < 16
  · simp [hlow, hmid, show j - 8 < 8 by omega, show 8 ≤ j by omega]
  · simp [hlow, hmid, show ¬ j - 8 < 8 by omega, show j - 8 - 8 < 16 by omega, show 16 + (j - 8 - 8) = j by omega]

theorem getLsbD_withAliasByte (w : Word) (id : BitVec 3) (v : Byte) {j : Nat} (hj : j < 32) :
    (withAliasByte w id v).getLsbD j =
      if aliasLow id ≤ j ∧ j < aliasLow id + 8 then v.getLsbD (j - aliasLow id) else w.getLsbD j := by
  unfold withAliasByte aliasLow
  split
  · simpa using getLsbD_append_low w v hj
  · exact getLsbD_append_second w v hj

/-- Only the owner of `id` is written. -/
theorem RegFile.get32_set8_other (x : RegFile) {id : BitVec 3} (v : Byte) {q : Reg32} (h : q ≠ aliasOwner id) :
    (x.set8 id v).get32 q = x.get32 q := by
  rw [RegFile.set8_eq_set32, RegFile.get32_set32_other _ _ h]

/-- The owner after the write: `v` in the byte `id` names, its old bits elsewhere. -/
theorem RegFile.getLsbD_get32_set8_owner (x : RegFile) (id : BitVec 3) (v : Byte) {j : Nat} (hj : j < 32) :
    ((x.set8 id v).get32 (aliasOwner id)).getLsbD j =
      if aliasLow id ≤ j ∧ j < aliasLow id + 8 then v.getLsbD (j - aliasLow id)
      else (x.get32 (aliasOwner id)).getLsbD j := by
  rw [RegFile.set8_eq_set32, RegFile.get32_set32_same, getLsbD_withAliasByte _ _ _ hj]

theorem aliasLow_le (id : BitVec 3) : aliasLow id ≤ 8 := by
  unfold aliasLow
  split <;> omega

@[simp] theorem RegFile.get8_set8_same (x : RegFile) (id : BitVec 3) (v : Byte) : (x.set8 id v).get8 id = v := by
  apply BitVec.eq_of_getLsbD_eq
  intro i hi
  have hlow := aliasLow_le id
  rw [RegFile.getLsbD_get8 _ _ hi, RegFile.getLsbD_get32_set8_owner _ _ _ (by omega),
    if_pos ⟨by omega, by omega⟩, Nat.add_sub_cancel_left]

/-! ### The obligations -/

/-- Settles O5: what a register reads after a write, for the register written and for another. -/
theorem set32ReplacesExactlyItsSlot : Obligations.Set32ReplacesExactlyItsSlot :=
  fun x r _ v => ⟨x.get32_set32_same r v, x.get32_set32_other v⟩

/-- Settles O6: `get8` is the byte of its owner that begins at bit 0 or at bit 8. -/
theorem get8ReadsItsAliasByte : Obligations.Get8ReadsItsAliasByte := by
  intro x id
  constructor
  · intro hlt
    simpa [aliasOwner, aliasLow, hlt] using x.toNat_get8 id
  · intro hge
    simpa [aliasOwner, aliasLow, Nat.not_lt.mpr hge] using x.toNat_get8 id

/-- Settles O7: the owner bit by bit, the frame, and the byte read back. -/
theorem set8PreservesTheOtherBits : Obligations.Set8PreservesTheOtherBits :=
  fun x id v =>
    ⟨fun _ hj => x.getLsbD_get32_set8_owner id v hj, fun _ hq => x.get32_set8_other v hq, x.get8_set8_same id v⟩

end Sys2Proof.Machine
end

section
/-! PROOFS. MEM_SIZE is fixed (20_memory.md R30): no instruction and no step changes the memory's capacity. -/

namespace Sys2Proof.Machine

/-- An instruction writes memory at commit at most, and a write keeps the capacity. -/
theorem exec_capacity {i : Instr} {s t : State} (h : exec i s = .next t) : t.mem.capacity = s.mem.capacity := by
  rcases exec_cases h with ⟨e, rfl, -⟩ | ⟨k, -, rfl⟩
  · rw [commit_mem, commitMem_capacity]
  · rw [raiseError_mem]

/-- Settles O4, by the ways a step can go: the range halt, an error and the sentinel test leave memory alone, and an
instruction keeps its capacity. -/
theorem stepKeepsTheCapacity : Obligations.StepKeepsTheCapacity := by
  intro s t h
  obtain ⟨-, ⟨-, rfl⟩ | ⟨-, r, -, rfl⟩ | ⟨-, i, bs, u, -, hu, rfl⟩⟩ := step_cases h
  · rw [haltRange_mem]
  · rw [raiseError_mem]
  · rw [sentinelTest_mem, exec_capacity hu]

end Sys2Proof.Machine
end

section
/-! PROOFS. The decoder and the encoder agree (30_encoding.md R46 to R56): each reader of the decoder succeeds exactly on
the encoding of what it reads, so that decoding is the inverse of encoding, both ways. -/

namespace Sys2Proof

/-! ### The dispatch -/

/-- The opcode byte of an operation kind, the table of 30_encoding.md R47 read from right to left. -/
def OpKind.opcode : OpKind → Byte
  | .movR32Imm32 r => 0b10111#5 ++ r.id
  | .addRm32R32 => 0x01#8
  | .group83 => 0x83#8
  | .movRm32R32 => 0x89#8
  | .movR32Rm32 => 0x8B#8
  | .movRm32Imm32 => 0xC7#8
  | .groupFF => 0xFF#8
  | .jmpRel32 => 0xE9#8
  | .jmpRel8 => 0xEB#8

/-- The operation kind of an instruction. -/
def Instr.kind : Instr → OpKind
  | .movR32Imm32 r _ => .movR32Imm32 r
  | .addRm32R32 _ => .addRm32R32
  | .subRm32Imm8 _ _ => .group83
  | .movRm32R32 _ => .movRm32R32
  | .movR32Rm32 _ => .movR32Rm32
  | .movRm32Imm32 _ _ => .movRm32Imm32
  | .incRm32 _ => .groupFF
  | .jmpRel32 _ => .jmpRel32
  | .jmpRel8 _ => .jmpRel8

theorem Instr.opcode_eq_kind_opcode (i : Instr) : i.opcode = i.kind.opcode := by
  cases i <;> rfl

@[simp] theorem dispatch_kind_opcode (kind : OpKind) : dispatch kind.opcode = some kind := by
  cases kind with
  | movR32Imm32 r => cases r <;> rfl
  | _ => rfl

/-- A byte whose high five bits are 10111 is those five and its own low three bits (30_encoding.md R56). -/
theorem append_low_of_high {op : Byte} (h : op.extractLsb' 3 5 = 0b10111#5) :
    0b10111#5 ++ op.extractLsb' 0 3 = op := by
  rw [← h]
  exact BitVec.extractLsb'_append_extractLsb'_eq_extractLsb' (by rfl) |>.trans BitVec.extractLsb'_eq_self

theorem opcode_of_dispatch {op : Byte} {kind : OpKind} (h : dispatch op = some kind) : op = kind.opcode := by
  unfold dispatch at h
  split_ifs at h with hmov
  case pos => cases h; simp [OpKind.opcode, append_low_of_high hmov]
  all_goals cases h; assumption

/-- Each operation kind has one opcode byte, and a mapped byte is its kind's. -/
theorem dispatch_eq_some_iff {op : Byte} {kind : OpKind} : dispatch op = some kind ↔ op = kind.opcode :=
  ⟨opcode_of_dispatch, fun h => by rw [h, dispatch_kind_opcode]⟩

/-! ### The readers -/

theorem takeByte_eq_ok {bs rest : List Byte} {b : Byte} : takeByte bs = .ok (b, rest) ↔ bs = b :: rest := by
  cases bs <;> simp [takeByte]

@[simp] theorem dwordBytes_dwordOfBytes (b0 b1 b2 b3 : Byte) :
    dwordBytes (dwordOfBytes b0 b1 b2 b3) = [b0, b1, b2, b3] := by
  obtain ⟨h0, h1, h2, h3⟩ := byteOfDword_dwordOfBytes b0 b1 b2 b3
  rw [dwordBytes, h0, h1, h2, h3]

theorem takeDword_eq_ok {bs rest : List Byte} {v : Word} :
    takeDword bs = .ok (v, rest) ↔ bs = dwordBytes v ++ rest := by
  constructor
  · intro h
    unfold takeDword at h
    split at h
    · cases h; simp
    · cases h
  · rintro rfl
    simp [dwordBytes, takeDword]


theorem takeDword_dwordBytes (v : Word) (rest : List Byte) : takeDword (dwordBytes v ++ rest) = .ok (v, rest) :=
  takeDword_eq_ok.mpr rfl

/-! ### The descriptor's invariant (30_encoding.md R51), as the readers test it -/

theorem ModRM.sibOk_iff {d : ModRM} : d.sibOk = true ↔ (d.sib.isSome = true ↔ d.mod ≠ 3#2 ∧ d.rm = 4#3) := by
  rw [ModRM.sibOk, beq_iff_eq, Bool.eq_iff_iff]
  simp

theorem ModRM.wf_iff {d : ModRM} : d.wf = true ↔ d.sibOk = true ∧ d.dispOk = true := by
  simp [ModRM.wf]

theorem takeSib_eq_ok {d : ModRM} {bs rest : List Byte} :
    takeSib d.mod d.rm bs = .ok (d.sib, rest) ↔ d.sibOk = true ∧ bs = d.sib.toList ++ rest := by
  rw [ModRM.sibOk_iff, takeSib]
  by_cases hs : d.mod ≠ 3#2 ∧ d.rm = 4#3
  · rw [if_pos hs]
    cases bs <;> cases d.sib <;> simp [takeByte, hs]
  · rw [if_neg hs]
    cases d.sib <;> simp [hs]


/-! The three displacement classes of (mod, rm) (30_encoding.md R54), one for each kind of displacement. -/

abbrev Disp32Class (mod : BitVec 2) (rm : BitVec 3) : Prop := mod = 0#2 ∧ rm = 5#3 ∨ mod = 2#2

abbrev NoDispClass (mod : BitVec 2) (rm : BitVec 3) : Prop := mod = 3#2 ∨ mod = 0#2 ∧ rm ≠ 5#3

theorem disp_classes (mod : BitVec 2) (rm : BitVec 3) :
    Disp32Class mod rm ∨ mod = 1#2 ∨ NoDispClass mod rm := by
  revert mod rm
  decide

theorem ModRM.dispOk_iff_disp32 {d : ModRM} (h : Disp32Class d.mod d.rm) :
    d.dispOk = true ↔ ∃ v, d.disp = .disp32 v := by
  rcases h with ⟨hmod, hrm⟩ | hmod <;> cases hd : d.disp <;> simp [ModRM.dispOk, *]

theorem ModRM.dispOk_iff_disp8 {d : ModRM} (h : d.mod = 1#2) : d.dispOk = true ↔ ∃ v, d.disp = .disp8 v := by
  cases hd : d.disp <;> simp [ModRM.dispOk, *]

theorem ModRM.dispOk_iff_none {d : ModRM} (h : NoDispClass d.mod d.rm) : d.dispOk = true ↔ d.disp = .none := by
  rcases h with hmod | ⟨hmod, hrm⟩ <;> cases hd : d.disp <;> simp [ModRM.dispOk, *]

theorem takeDisp_disp32 {mod : BitVec 2} {rm : BitVec 3} (h : Disp32Class mod rm) {bs rest : List Byte} {disp : Disp} :
    takeDisp mod rm bs = .ok (disp, rest) ↔ ∃ v, disp = .disp32 v ∧ bs = dwordBytes v ++ rest := by
  simp only [takeDisp, if_pos h, ← takeDword_eq_ok]
  cases takeDword bs <;> simp [Prod.ext_iff, eq_comm]

theorem takeDisp_disp8 {mod : BitVec 2} {rm : BitVec 3} (h : mod = 1#2) {bs rest : List Byte} {disp : Disp} :
    takeDisp mod rm bs = .ok (disp, rest) ↔ ∃ v, disp = .disp8 v ∧ bs = v :: rest := by
  simp only [takeDisp, h, ← takeByte_eq_ok]
  cases takeByte bs <;> simp [Prod.ext_iff, eq_comm]

theorem takeDisp_none {mod : BitVec 2} {rm : BitVec 3} (h : NoDispClass mod rm) {bs rest : List Byte} {disp : Disp} :
    takeDisp mod rm bs = .ok (disp, rest) ↔ disp = .none ∧ bs = rest := by
  rcases h with hmod | ⟨hmod, hrm⟩ <;> simp [takeDisp, eq_comm, *]

theorem takeDisp_eq_ok {d : ModRM} {bs rest : List Byte} :
    takeDisp d.mod d.rm bs = .ok (d.disp, rest) ↔ d.dispOk = true ∧ bs = d.disp.bytes ++ rest := by
  rcases disp_classes d.mod d.rm with h | h | h
  · rw [takeDisp_disp32 h, ModRM.dispOk_iff_disp32 h]
    cases d.disp <;> simp [Disp.bytes]
  · rw [takeDisp_disp8 h, ModRM.dispOk_iff_disp8 h]
    cases d.disp <;> simp [Disp.bytes]
  · rw [takeDisp_none h, ModRM.dispOk_iff_none h]
    cases d.disp <;> simp [Disp.bytes]

/-! ### The ModRM group -/

@[simp] theorem ModRM.byte_mod (d : ModRM) : d.byte.extractLsb' 6 2 = d.mod :=
  (BitVec.extractLsb'_append_eq_of_le (by decide)).trans BitVec.extractLsb'_append_eq_left

@[simp] theorem ModRM.byte_regOrOpcode (d : ModRM) : d.byte.extractLsb' 3 3 = d.regOrOpcode :=
  (BitVec.extractLsb'_append_eq_of_le (by decide)).trans BitVec.extractLsb'_append_eq_right

@[simp] theorem ModRM.byte_rm (d : ModRM) : d.byte.extractLsb' 0 3 = d.rm :=
  BitVec.extractLsb'_append_eq_right

/-- No bit of a ModRM byte is outside its three fields. -/
theorem ModRM.byte_eq_of_fields {b : Byte} {d : ModRM} (hmod : b.extractLsb' 6 2 = d.mod)
    (hreg : b.extractLsb' 3 3 = d.regOrOpcode) (hrm : b.extractLsb' 0 3 = d.rm) : b = d.byte := by
  have hhigh : b.extractLsb' 6 2 ++ b.extractLsb' 3 3 = b.extractLsb' 3 5 :=
    BitVec.extractLsb'_append_extractLsb'_eq_extractLsb' rfl
  have hall : b.extractLsb' 3 5 ++ b.extractLsb' 0 3 = b.extractLsb' 0 8 :=
    BitVec.extractLsb'_append_extractLsb'_eq_extractLsb' rfl
  rw [ModRM.byte, ← hmod, ← hreg, ← hrm, hhigh, hall, BitVec.extractLsb'_eq_self]

/-- What a read ModRM group comes from: the ModRM byte, and the two readers that follow it. -/
theorem takeModRM_cases {bs rest : List Byte} {d : ModRM} (h : takeModRM bs = .ok (d, rest)) :
    ∃ bs₁ bs₂, bs = d.byte :: bs₁ ∧ takeSib d.mod d.rm bs₁ = .ok (d.sib, bs₂) ∧
      takeDisp d.mod d.rm bs₂ = .ok (d.disp, rest) := by
  cases bs with
  | nil => cases h
  | cons b bs =>
    simp only [takeModRM, takeByte] at h
    split at h
    · cases h
    next sib bs₂ hsib =>
      split at h
      · cases h
      next disp bs₃ hdisp =>
        cases h
        exact ⟨bs, bs₂, congrArg (· :: bs) (ModRM.byte_eq_of_fields rfl rfl rfl), hsib, hdisp⟩

theorem takeModRM_eq_ok {bs rest : List Byte} {d : ModRM} :
    takeModRM bs = .ok (d, rest) ↔ d.wf = true ∧ bs = encodeModRM d ++ rest := by
  constructor
  · intro h
    obtain ⟨bs₁, bs₂, rfl, hsib, hdisp⟩ := takeModRM_cases h
    obtain ⟨hsibOk, rfl⟩ := takeSib_eq_ok.mp hsib
    obtain ⟨hdispOk, rfl⟩ := takeDisp_eq_ok.mp hdisp
    exact ⟨ModRM.wf_iff.mpr ⟨hsibOk, hdispOk⟩, by simp [encodeModRM]⟩
  · rintro ⟨hwf, rfl⟩
    obtain ⟨hsibOk, hdispOk⟩ := ModRM.wf_iff.mp hwf
    have hsib := takeSib_eq_ok (rest := d.disp.bytes ++ rest).mpr ⟨hsibOk, rfl⟩
    have hdisp := takeDisp_eq_ok (rest := rest).mpr ⟨hdispOk, rfl⟩
    simp [takeModRM, takeByte, encodeModRM, hsib, hdisp]

theorem takeModRM_encodeModRM {d : ModRM} (hwf : d.wf = true) (rest : List Byte) :
    takeModRM (encodeModRM d ++ rest) = .ok (d, rest) :=
  takeModRM_eq_ok.mpr ⟨hwf, rfl⟩

/-! ### The instruction -/

/-- The bytes of an encoding after its opcode byte. -/
def Instr.operandBytes (i : Instr) : List Byte := (encode i).tail

theorem encode_eq_cons (i : Instr) : encode i = i.opcode :: i.operandBytes := rfl

theorem decodeKind_sound {op : Byte} {kind : OpKind} {bs rest : List Byte} {i : Instr}
    (h : decodeKind op kind bs = .ok (i, rest)) :
    i.kind = kind ∧ i.wf = true ∧ bs = i.operandBytes ++ rest := by
  cases kind with simp only [decodeKind] at h
  | movR32Imm32 r =>
    split at h
    next imm bs' himm => cases h; exact ⟨rfl, rfl, takeDword_eq_ok.mp himm⟩
    · cases h
  | addRm32R32 | movRm32R32 | movR32Rm32 =>
    split at h
    next d bs' hd => cases h; exact ⟨rfl, takeModRM_eq_ok.mp hd⟩
    · cases h
  | group83 =>
    split at h
    next d bs' hd =>
      obtain ⟨hwf, rfl⟩ := takeModRM_eq_ok.mp hd
      split at h
      · cases h
      next hreg =>
        split at h
        next imm bs'' himm =>
          cases h
          rw [takeByte_eq_ok.mp himm]
          exact ⟨rfl, by simp [Instr.wf, hwf, not_not.mp hreg], by simp [Instr.operandBytes, encode]⟩
        · cases h
    · cases h
  | movRm32Imm32 =>
    split at h
    next d bs' hd =>
      obtain ⟨hwf, rfl⟩ := takeModRM_eq_ok.mp hd
      split at h
      next imm bs'' himm =>
        cases h
        rw [takeDword_eq_ok.mp himm]
        exact ⟨rfl, hwf, by simp [Instr.operandBytes, encode]⟩
      · cases h
    · cases h
  | groupFF =>
    split at h
    next d bs' hd =>
      obtain ⟨hwf, rfl⟩ := takeModRM_eq_ok.mp hd
      split at h
      · cases h
      next hreg =>
        cases h
        exact ⟨rfl, by simp [Instr.wf, hwf, not_not.mp hreg], rfl⟩
    · cases h
  | jmpRel32 =>
    split at h
    next rel bs' hrel => cases h; exact ⟨rfl, rfl, takeDword_eq_ok.mp hrel⟩
    · cases h
  | jmpRel8 =>
    split at h
    next rel bs' hrel => cases h; exact ⟨rfl, rfl, takeByte_eq_ok.mp hrel⟩
    · cases h

theorem decodeKind_complete {op : Byte} {i : Instr} (rest : List Byte) (hwf : i.wf = true) :
    decodeKind op i.kind (i.operandBytes ++ rest) = .ok (i, rest) := by
  cases i with
  | movR32Imm32 | jmpRel32 => simp [decodeKind, Instr.kind, Instr.operandBytes, encode, takeDword_dwordBytes]
  | addRm32R32 d | movRm32R32 d | movR32Rm32 d =>
    simp [decodeKind, Instr.kind, Instr.operandBytes, encode, takeModRM_encodeModRM (d := d) hwf]
  | movRm32Imm32 d imm =>
    simp [decodeKind, Instr.kind, Instr.operandBytes, encode, takeModRM_encodeModRM (d := d) hwf, takeDword_dwordBytes]
  | subRm32Imm8 d imm =>
    obtain ⟨hd, hsub⟩ := Bool.and_eq_true_iff.mp hwf
    simp [decodeKind, Instr.kind, Instr.operandBytes, encode, takeModRM_encodeModRM hd, takeByte, beq_iff_eq.mp hsub]
  | incRm32 d =>
    obtain ⟨hd, hsub⟩ := Bool.and_eq_true_iff.mp hwf
    simp [decodeKind, Instr.kind, Instr.operandBytes, encode, takeModRM_encodeModRM hd, beq_iff_eq.mp hsub]
  | jmpRel8 rel => rfl

/-- Decoding succeeds exactly on the encodings of the well-formed instructions. -/
theorem decode_eq_ok {bs rest : List Byte} {i : Instr} :
    decode bs = .ok (i, rest) ↔ i.wf = true ∧ bs = encode i ++ rest := by
  constructor
  · intro h
    cases bs with
    | nil => cases h
    | cons op bs =>
      simp only [decode] at h
      split at h
      · cases h
      next kind hkind =>
        obtain ⟨rfl, hwf, rfl⟩ := decodeKind_sound h
        rw [opcode_of_dispatch hkind, ← Instr.opcode_eq_kind_opcode]
        exact ⟨hwf, rfl⟩
  · rintro ⟨hwf, rfl⟩
    rw [encode_eq_cons, List.cons_append, decode, Instr.opcode_eq_kind_opcode, dispatch_kind_opcode]
    exact decodeKind_complete rest hwf

/-! ### The obligations -/

/-- Settles O16: the right-to-left direction of `decode_eq_ok`. -/
theorem decodeGivesBackWhatWasEncoded : Obligations.DecodeGivesBackWhatWasEncoded :=
  fun _ _ hwf => decode_eq_ok.mpr ⟨hwf, rfl⟩

/-- Settles O17: the left-to-right direction of `decode_eq_ok`. -/
theorem decodeReadsOnlyEncodings : Obligations.DecodeReadsOnlyEncodings :=
  fun _ _ _ => decode_eq_ok.mp

end Sys2Proof
end

section
/-! PROOFS. From the bytes in memory to the step (40_execution_cycle.md R65): the bytes a fetch sees, an instruction
whose encoding lies at `eip`, and the errors of an unmapped opcode (30_encoding.md R48) and of an unlisted sub-opcode
(R49). -/

namespace Sys2Proof

open Machine

/-! ### Lengths -/

theorem encode_length (i : Instr) : (encode i).length = i.length := by
  cases i with
  | movR32Imm32 r imm => exact Laws.EncodeLength.movR32Imm32 r imm
  | addRm32R32 d => exact Laws.EncodeLength.addRm32R32 d
  | subRm32Imm8 d imm => exact Laws.EncodeLength.subRm32Imm8 d imm
  | movRm32R32 d => exact Laws.EncodeLength.movRm32R32 d
  | movR32Rm32 d => exact Laws.EncodeLength.movR32Rm32 d
  | movRm32Imm32 d imm => exact Laws.EncodeLength.movRm32Imm32 d imm
  | incRm32 d => exact Laws.EncodeLength.incRm32 d
  | jmpRel32 rel => exact Laws.EncodeLength.jmpRel32 rel
  | jmpRel8 rel => exact Laws.EncodeLength.jmpRel8 rel

theorem ModRM.length_le (d : ModRM) : d.length ≤ 6 := by
  have hdisp : d.disp.size ≤ 4 := by cases d.disp <;> simp [Disp.size]
  rw [ModRM.length]
  split <;> omega

theorem Instr.length_le_maxInstrBytes (i : Instr) : i.length ≤ maxInstrBytes := by
  rw [maxInstrBytes]
  cases i with
  | movR32Imm32 | jmpRel32 | jmpRel8 => simp [Instr.length]
  | addRm32R32 d | subRm32Imm8 d | movRm32R32 d | movR32Rm32 d | movRm32Imm32 d | incRm32 d =>
    have := d.length_le
    simp only [Instr.length]
    omega

end Sys2Proof

namespace Sys2Proof.Machine

variable {s : State}

@[simp] theorem modOf_byte (d : ModRM) : modOf d.byte = d.mod := d.byte_mod
@[simp] theorem regOf_byte (d : ModRM) : regOf d.byte = d.regOrOpcode := d.byte_regOrOpcode
@[simp] theorem rmOf_byte (d : ModRM) : rmOf d.byte = d.rm := d.byte_rm

/-! ### The bytes a fetch sees -/

/-- Byte `k` of a fetch window is the byte at that address, when every byte up to it is inside memory. -/
theorem fetchWindow_getElem? {m : Memory} {n k : Nat} {a : Word} (hk : k < n)
    (hin : ∀ j : Nat, j ≤ k → (a + BitVec.ofNat 32 j).toNat < m.capacity) :
    (fetchWindow m n a)[k]? = some (m.readByte (a + BitVec.ofNat 32 k)) := by
  induction n generalizing a k with
  | zero => omega
  | succ n ih =>
    have hfirst : m.inBounds a = true := (m.inBounds_iff a).mpr (by simpa using hin 0 (Nat.zero_le k))
    rw [fetchWindow_succ n hfirst]
    cases k with
    | zero => simp
    | succ k =>
      have hnext (j : Nat) : a + 1#32 + BitVec.ofNat 32 j = a + BitVec.ofNat 32 (j + 1) := by
        rw [BitVec.add_assoc, Nat.add_comm j 1, BitVec.ofNat_add]
      rw [List.getElem?_cons_succ, ih (by omega) fun j hj => hnext j ▸ hin (j + 1) (by omega), hnext]

/-- Bytes read off memory by address from `eip` upward, all inside memory, are the first bytes fetched. -/
theorem prefix_fetchBytes {bs : List Byte} (hlen : bs.length ≤ maxInstrBytes) (hin : s.InstrInside bs.length)
    (hbs : ∀ k : Nat, k < bs.length → bs[k]? = some (s.instrByte k)) : bs <+: fetchBytes s := by
  refine List.prefix_iff_getElem?.mpr fun k hk => ?_
  rw [fetchBytes, fetchWindow_getElem? (by omega) fun j hj => hin j (by omega), ← List.getElem?_eq_getElem hk, hbs k hk,
    State.instrByte]

/-- The first byte fetched is the opcode byte at `eip`, which is inside memory. -/
theorem fetchBytes_cons {op : Byte} {bs : List Byte} (h : fetchBytes s = op :: bs) :
    s.mem.inBounds s.eip = true ∧ op = s.mem.readByte s.eip := by
  obtain ⟨hin, hop, -⟩ := fetchWindow_cases h
  exact ⟨hin, hop⟩

/-! ### The step, by what the decoder answers -/

theorem step_of_decode_ok {i : Instr} {rest : List Byte} (hrun : s.status = .running)
    (hdec : decode (fetchBytes s) = .ok (i, rest)) : step s = afterInstr (exec i s) := by
  obtain ⟨-, hbytes⟩ := decode_eq_ok.mp hdec
  obtain ⟨hin, -⟩ := fetchBytes_cons hbytes
  simp [step, noStep, fetch, hrun, hin, hdec]

/-- A rejected instruction raises its error, as long as its opcode byte is inside memory. -/
theorem step_of_decode_error {r : Reject} (hrun : s.status = .running) (hin : s.mem.inBounds s.eip = true)
    (hdec : decode (fetchBytes s) = .error r) :
    step s = .next (raiseError (rejectKind r) (s.mem.readByte s.eip) s) := by
  simp [step, noStep, fetch, hrun, hin, hdec]

theorem raiseError_raised (kind : ErrorKind) (op : Byte) (s : State) : (raiseError kind op s).Raised kind :=
  ⟨s.eip, op, raiseError_status s kind op⟩

end Sys2Proof.Machine

namespace Sys2Proof

open Machine

/-! ### Unmapped opcodes and unlisted sub-opcodes -/

/-- The five high bits that mark B8..BF (30_encoding.md R56). -/
theorem high_bits_eq_iff {op : Byte} : op.extractLsb' 3 5 = 0b10111#5 ↔ 0xB8#8 ≤ op ∧ op ≤ 0xBF#8 := by
  rw [← BitVec.toNat_inj, BitVec.extractLsb'_toNat, Nat.shiftRight_eq_div_pow, BitVec.le_def, BitVec.le_def]
  simp only [BitVec.reduceToNat]
  omega

/-- The unmapped bytes are those outside B8..BF and outside the other eight rows of the table (30_encoding.md R47, R48). -/
theorem dispatch_eq_none {op : Byte} (hrange : op < 0xB8#8 ∨ 0xBF#8 < op)
    (hrows : op ∉ [0x01#8, 0x83, 0x89, 0x8B, 0xC7, 0xFF, 0xE9, 0xEB]) : dispatch op = none := by
  have hhigh : op.extractLsb' 3 5 ≠ 0b10111#5 := by
    rw [Ne, high_bits_eq_iff]
    bv_omega
  simp_all [dispatch]

theorem takeByte_error {bs : List Byte} {e : Reject} (h : takeByte bs = .error e) : e = .truncated := by
  cases bs <;> cases h
  rfl

theorem takeDword_error {bs : List Byte} {e : Reject} (h : takeDword bs = .error e) : e = .truncated := by
  unfold takeDword at h
  split at h <;> cases h
  rfl

/-- After a ModRM group that reads, the decoder rejects the sub-opcode exactly where R49 does not list it: before it
looks for an immediate, and in no other operation kind. -/
theorem decodeKind_eq_unsupported {op : Byte} {kind : OpKind} {d : ModRM} (rest : List Byte) (hwf : d.wf = true)
    (hmodrm : kind.hasModRM = true) :
    decodeKind op kind (encodeModRM d ++ rest) = .error (.unsupportedSubOpcode op d.regOrOpcode) ↔
      SubOpcodeUnlisted kind d.byte := by
  rw [SubOpcodeUnlisted, regOf_byte]
  cases kind with simp only [decodeKind, takeModRM_encodeModRM hwf]
  | movR32Imm32 | jmpRel32 | jmpRel8 => cases hmodrm
  | addRm32R32 | movRm32R32 | movR32Rm32 => simp
  | movRm32Imm32 =>
    cases himm : takeDword rest with
    | ok p => simp
    | error e => simp [takeDword_error himm]
  | group83 =>
    by_cases hsub : d.regOrOpcode = 5#3
    · cases himm : takeByte rest with
      | ok p => simp [hsub]
      | error e => simp [hsub, takeByte_error himm]
    · simp [hsub]
  | groupFF => by_cases hsub : d.regOrOpcode = 0#3 <;> simp [hsub]

/-- The decoder on an opcode with a ModRM byte, as `decodeKind_eq_unsupported` says for its kind. -/
theorem decode_eq_unsupported {op : Byte} {kind : OpKind} {d : ModRM} (rest : List Byte)
    (hkind : dispatch op = some kind) (hwf : d.wf = true) (hmodrm : kind.hasModRM = true) :
    decode (op :: (encodeModRM d ++ rest)) = .error (.unsupportedSubOpcode op d.regOrOpcode) ↔
      SubOpcodeUnlisted kind d.byte := by
  rw [decode, hkind]
  exact decodeKind_eq_unsupported rest hwf hmodrm

/-- A running state whose fetched bytes are an opcode and a ModRM group with an unlisted sub-opcode raises
NotImplemented, whatever follows. -/
theorem step_unlisted {s : State} {op : Byte} {kind : OpKind} {d : ModRM} {rest : List Byte}
    (hrun : s.status = .running) (hwf : d.wf = true) (hbytes : fetchBytes s = op :: (encodeModRM d ++ rest))
    (hkind : dispatch op = some kind) (hsub : SubOpcodeUnlisted kind d.byte) :
    ∃ t, step s = .next t ∧ t.Raised .notImplemented := by
  have hmodrm : kind.hasModRM = true := by rcases hsub with ⟨rfl, -⟩ | ⟨rfl, -⟩ <;> rfl
  have hdec := (decode_eq_unsupported rest hkind hwf hmodrm).mpr hsub
  obtain ⟨hin, -⟩ := fetchBytes_cons hbytes
  exact ⟨_, step_of_decode_error hrun hin (hbytes ▸ hdec), raiseError_raised _ _ s⟩

/-! ### The obligations -/

/-- Settles O37: the bytes fetched begin with the encoding, and so decode to what it encodes. -/
theorem encodedInstructionInMemoryRuns : Obligations.EncodedInstructionInMemoryRuns := by
  intro s i hrun hwf hin hbytes
  rw [← encode_length] at hin hbytes
  obtain ⟨rest, hrest⟩ := prefix_fetchBytes (encode_length i ▸ i.length_le_maxInstrBytes) hin hbytes
  exact step_of_decode_ok hrun (decode_eq_ok.mpr ⟨hwf, hrest.symm⟩)

/-- Settles O14: the byte at `eip` is fetched, and the decoder rejects it before it looks at another. -/
theorem unmappedOpcodeRaisesUnknownOpcode : Obligations.UnmappedOpcodeRaisesUnknownOpcode := by
  intro s hrun hin hrange hrows
  have hin : s.mem.inBounds s.eip = true := (s.mem.inBounds_iff s.eip).mpr hin
  have hdec : decode (fetchBytes s) = .error (.unknownOpcode (s.mem.readByte s.eip)) := by
    rw [fetchBytes, maxInstrBytes, fetchWindow_succ _ hin, decode, dispatch_eq_none hrange hrows]
  exact ⟨_, step_of_decode_error hrun hin hdec, raiseError_raised _ _ s⟩

/-- Settles O15: both groups are cases of `step_unlisted`. -/
theorem unlistedSubOpcodeRaisesNotImplemented : Obligations.UnlistedSubOpcodeRaisesNotImplemented := by
  intro s d imm rest hrun hwf
  constructor
  · intro hbytes hsub
    exact step_unlisted hrun hwf hbytes (dispatch_kind_opcode .group83) (.inl ⟨rfl, by simpa using hsub⟩)
  · intro hbytes hsub
    exact step_unlisted hrun hwf hbytes (dispatch_kind_opcode .groupFF) (.inr ⟨rfl, by simpa using hsub⟩)

end Sys2Proof
end

section
/-! PROOFS. The ModRM group by (mod, rm) (30_encoding.md R54), the effective address of a descriptor (R58), the SIB forms
(R59), and the length of an instruction by its opcode and ModRM byte (R46, R50). -/

namespace Sys2Proof

open Machine

/-! ### What (mod, rm) say of a well-formed descriptor -/

theorem ModRM.sib_isSome_iff {d : ModRM} (hwf : d.wf = true) : d.sib.isSome = true ↔ d.mod ≠ 3#2 ∧ d.rm = 4#3 :=
  ModRM.sibOk_iff.mp (ModRM.wf_iff.mp hwf).1

theorem ModRM.sib_eq_none {d : ModRM} (hwf : d.wf = true) (h : ¬(d.mod ≠ 3#2 ∧ d.rm = 4#3)) : d.sib = none := by
  simpa using mt (ModRM.sib_isSome_iff hwf).mp h

theorem ModRM.exists_disp32 {d : ModRM} (hwf : d.wf = true) (h : Disp32Class d.mod d.rm) : ∃ v, d.disp = .disp32 v :=
  (ModRM.dispOk_iff_disp32 h).mp (ModRM.wf_iff.mp hwf).2

theorem ModRM.exists_disp8 {d : ModRM} (hwf : d.wf = true) (h : d.mod = 1#2) : ∃ v, d.disp = .disp8 v :=
  (ModRM.dispOk_iff_disp8 h).mp (ModRM.wf_iff.mp hwf).2

theorem ModRM.disp_eq_none {d : ModRM} (hwf : d.wf = true) (h : NoDispClass d.mod d.rm) : d.disp = .none :=
  (ModRM.dispOk_iff_none h).mp (ModRM.wf_iff.mp hwf).2

/-- The number of SIB bytes (mod, rm) ask for (30_encoding.md R52). -/
def sibSize (mod : BitVec 2) (rm : BitVec 3) : Nat := if mod ≠ 3#2 ∧ rm = 4#3 then 1 else 0

/-- The number of displacement bytes (mod, rm) ask for (30_encoding.md R52). -/
def dispSize (mod : BitVec 2) (rm : BitVec 3) : Nat := if Disp32Class mod rm then 4 else if mod = 1#2 then 1 else 0

theorem ModRM.disp_size_eq {d : ModRM} (hwf : d.wf = true) : d.disp.size = dispSize d.mod d.rm := by
  rcases disp_classes d.mod d.rm with h | h | h
  · obtain ⟨v, hv⟩ := ModRM.exists_disp32 hwf h
    rw [hv, dispSize, if_pos h, Disp.size]
  · obtain ⟨v, hv⟩ := ModRM.exists_disp8 hwf h
    simp [hv, dispSize, h, Disp.size]
  · rw [ModRM.disp_eq_none hwf h]
    rcases h with hmod | ⟨hmod, hrm⟩ <;> simp [dispSize, Disp.size, *]

theorem ModRM.length_eq {d : ModRM} (hwf : d.wf = true) : d.length = 1 + sibSize d.mod d.rm + dispSize d.mod d.rm := by
  simp only [ModRM.length, ModRM.disp_size_eq hwf, ModRM.sib_isSome_iff hwf, sibSize]

/-- The M column of the table is the sum of the group's parts (30_encoding.md R54). -/
theorem groupLength_eq (b : Byte) : groupLength b = 1 + sibSize (modOf b) (rmOf b) + dispSize (modOf b) (rmOf b) := by
  rw [groupLength]
  generalize modOf b = mod, rmOf b = rm
  revert mod rm
  decide

theorem ModRM.length_eq_groupLength {d : ModRM} (hwf : d.wf = true) : d.length = groupLength d.byte := by
  rw [groupLength_eq, modOf_byte, rmOf_byte, ModRM.length_eq hwf]

/-- The bytes a ModRM group consumes, by (mod, rm). -/
theorem takeModRM_length {bs rest : List Byte} {d : ModRM} (h : takeModRM bs = .ok (d, rest)) :
    bs.length = rest.length + (1 + sibSize d.mod d.rm + dispSize d.mod d.rm) := by
  obtain ⟨hwf, rfl⟩ := takeModRM_eq_ok.mp h
  rw [List.length_append, Laws.encodeModRM_length, ModRM.length_eq hwf, Nat.add_comm]

end Sys2Proof

namespace Sys2Proof.Machine

/-! ### The effective address, by (mod, rm) -/

variable {x : RegFile} {d : ModRM}

theorem resolve_absolute (hmod : d.mod = 0#2) (hrm : d.rm = 5#3) : resolve x d = .ok (.memory d.disp.toWord) := by
  rw [resolve_memory (by simp [hmod]) (by simp [hrm]), if_pos ⟨hmod, hrm⟩]

theorem resolve_base (hmod : d.mod = 0#2) (h4 : d.rm ≠ 4#3) (h5 : d.rm ≠ 5#3) :
    resolve x d = .ok (.memory (x.get32 (Reg32.ofId d.rm))) := by
  rw [resolve_memory (by simp [hmod]) h4, if_neg (fun h => h5 h.2), if_pos hmod, ModRM.rmReg]

theorem resolve_base_disp (h3 : d.mod ≠ 3#2) (h0 : d.mod ≠ 0#2) (h4 : d.rm ≠ 4#3) :
    resolve x d = .ok (.memory (x.get32 (Reg32.ofId d.rm) + d.disp.toWord)) := by
  rw [resolve_memory h3 h4, if_neg (fun h => h0 h.1), if_neg h0, ModRM.rmReg]

/-- The 32-bit sum is the exact sum of the base and a signed displacement, modulo 2^32 (30_encoding.md R53). -/
theorem ofInt_toNat_add_toInt (base : Word) {w : Nat} (v : BitVec w) :
    BitVec.ofInt 32 (base.toNat + v.toInt) = base + v.signExtend 32 := by
  rw [BitVec.ofInt_add, BitVec.ofInt_natCast, BitVec.ofNat_toNat, BitVec.setWidth_eq, BitVec.signExtend]

/-! ### SIB forms -/

theorem conclude_error_raised (i : Instr) (s : State) (k : ErrorKind) :
    ∃ t, conclude i s (.error k) = .next t ∧ t.Raised k :=
  ⟨_, conclude_error s k i, raiseError_raised k i.opcode s⟩

/-- The SIB byte is the byte after the ModRM byte, whatever it is. -/
theorem takeModRM_sib {b sib : Byte} {bs rest : List Byte} {d : ModRM} (hform : SibForm b)
    (h : takeModRM (b :: sib :: bs) = .ok (d, rest)) : d.mod ≠ 3#2 ∧ d.rm = 4#3 ∧ d.sib = some sib := by
  obtain ⟨hwf, hbytes⟩ := takeModRM_eq_ok.mp h
  obtain ⟨rfl, htail⟩ := List.cons.inj hbytes
  rw [SibForm, modOf_byte, rmOf_byte] at hform
  obtain ⟨c, hc⟩ := Option.isSome_iff_exists.mp ((ModRM.sib_isSome_iff hwf).mpr hform)
  rw [hc] at htail
  obtain ⟨rfl, -⟩ := List.cons.inj htail
  exact ⟨hform.1, hform.2, hc⟩

end Sys2Proof.Machine

namespace Sys2Proof

open Machine

/-! ### The length of an instruction -/

/-- The length of a well-formed instruction by its kind's columns, `b` being its second byte (30_encoding.md R46). -/
theorem Instr.length_eq {i : Instr} (hwf : i.wf = true) {b : Byte} {bs rest : List Byte}
    (h : i.operandBytes ++ rest = b :: bs) :
    i.length = 1 + (if i.kind.hasModRM then groupLength b else 0) + i.kind.immSize := by
  cases i with
  | movR32Imm32 | jmpRel32 | jmpRel8 => rfl
  | addRm32R32 d | movRm32R32 d | movR32Rm32 d | movRm32Imm32 d =>
    obtain ⟨rfl, -⟩ := List.cons.inj h
    simp [Instr.length, Instr.kind, OpKind.hasModRM, OpKind.immSize, ModRM.length_eq_groupLength (d := d) hwf]
  | subRm32Imm8 d | incRm32 d =>
    obtain ⟨rfl, -⟩ := List.cons.inj h
    obtain ⟨hd, -⟩ := Bool.and_eq_true_iff.mp hwf
    simp [Instr.length, Instr.kind, OpKind.hasModRM, OpKind.immSize, ModRM.length_eq_groupLength hd]

theorem decoderPort_hasModRM {op : Byte} {kind : OpKind} (h : dispatch op = some kind) (field : Option (BitVec 3)) :
    (decoderPort op field).hasModRM = kind.hasModRM := by
  simp [decoderPort, h]

theorem decoderPort_immSize {op : Byte} {kind : OpKind} (h : dispatch op = some kind) (field : Option (BitVec 3)) :
    (decoderPort op field).immSize = kind.immSize := by
  simp [decoderPort, h]

/-! ### The obligations -/

/-- Settles O18: the descriptor is well-formed, so (mod, rm) give its parts, its length and its location. -/
theorem modRMGroupFollowsTheTable : Obligations.ModRMGroupFollowsTheTable := by
  intro bs rest d x h
  obtain ⟨hwf, -⟩ := takeModRM_eq_ok.mp h
  have hlen := takeModRM_length h
  simp only [sibSize, dispSize, Disp32Class] at hlen
  have hsome (hmod : d.mod ≠ 3#2) (hrm : d.rm = 4#3) := (ModRM.sib_isSome_iff hwf).mpr ⟨hmod, hrm⟩
  refine ⟨?_, ?_, ?_, ?_, ?_, ?_, ?_, ?_⟩
  · intro hmod h4 h5
    refine ⟨ModRM.sib_eq_none hwf (by simp [h4]), ModRM.disp_eq_none hwf (.inr ⟨hmod, h5⟩), ?_, resolve_base hmod h4 h5⟩
    simpa [hmod, h4, h5] using hlen
  · intro hmod hrm
    have h3 : d.mod ≠ 3#2 := by simp [hmod]
    refine ⟨hsome h3 hrm, ModRM.disp_eq_none hwf (.inr ⟨hmod, by simp [hrm]⟩), ?_, resolve_sib h3 hrm⟩
    simpa [hmod, hrm] using hlen
  · intro hmod hrm
    obtain ⟨v, hv⟩ := ModRM.exists_disp32 hwf (.inl ⟨hmod, hrm⟩)
    refine ⟨ModRM.sib_eq_none hwf (by simp [hrm]), ⟨v, hv, ?_⟩, ?_⟩
    · rw [resolve_absolute hmod hrm, hv, Disp.toWord]
    · simpa [hmod, hrm] using hlen
  · intro hmod h4
    obtain ⟨v, hv⟩ := ModRM.exists_disp8 hwf hmod
    refine ⟨ModRM.sib_eq_none hwf (by simp [h4]), ⟨v, hv, ?_⟩, ?_⟩
    · rw [resolve_base_disp (by simp [hmod]) (by simp [hmod]) h4, hv, Disp.toWord]
    · simpa [hmod, h4] using hlen
  · intro hmod hrm
    have h3 : d.mod ≠ 3#2 := by simp [hmod]
    refine ⟨hsome h3 hrm, ModRM.exists_disp8 hwf hmod, ?_, resolve_sib h3 hrm⟩
    simpa [hmod, hrm] using hlen
  · intro hmod h4
    obtain ⟨v, hv⟩ := ModRM.exists_disp32 hwf (.inr hmod)
    refine ⟨ModRM.sib_eq_none hwf (by simp [h4]), ⟨v, hv, ?_⟩, ?_⟩
    · rw [resolve_base_disp (by simp [hmod]) (by simp [hmod]) h4, hv, Disp.toWord]
    · simpa [hmod, h4] using hlen
  · intro hmod hrm
    have h3 : d.mod ≠ 3#2 := by simp [hmod]
    refine ⟨hsome h3 hrm, ModRM.exists_disp32 hwf (.inr hmod), ?_, resolve_sib h3 hrm⟩
    simpa [hmod, hrm] using hlen
  · intro hmod
    refine ⟨ModRM.sib_eq_none hwf (by simp [hmod]), ModRM.disp_eq_none hwf (.inl hmod), ?_, resolve_register hmod⟩
    simpa [hmod] using hlen

/-- Settles O21: one lemma about `resolve` for each case. -/
theorem resolveFollowsItsCases : Obligations.ResolveFollowsItsCases := by
  intro x d
  refine ⟨resolve_register, resolve_sib, ?_, resolve_base, ?_, ?_⟩
  · intro hmod hrm v hv
    rw [resolve_absolute hmod hrm, hv, Disp.toWord]
  · intro hmod h4 v hv
    rw [resolve_base_disp (by simp [hmod]) (by simp [hmod]) h4, hv, Disp.toWord, ofInt_toNat_add_toInt, sext32]
  · intro hmod h4 v hv
    rw [resolve_base_disp (by simp [hmod]) (by simp [hmod]) h4, hv, Disp.toWord, ofInt_toNat_add_toInt, BitVec.signExtend_eq]

/-- Settles O22: each of the six forms concludes with the error its operand raises. -/
theorem sibFormsRaiseNotImplemented : Obligations.SibFormsRaiseNotImplemented := by
  refine ⟨fun _ _ _ _ _ => takeModRM_sib, fun d s imm imm8 h3 h4 => ⟨resolve_sib h3 h4, ?_, ?_, ?_, ?_, ?_, ?_⟩⟩
  · rw [exec_addRm32R32, modifyRM32_sib _ _ h3 h4]
    exact conclude_error_raised _ s _
  · rw [exec_subRm32Imm8, modifyRM32_sib _ _ h3 h4]
    exact conclude_error_raised _ s _
  · rw [exec_movRm32R32, storeRM32_sib _ _ h3 h4]
    exact conclude_error_raised _ s _
  · rw [exec_movR32Rm32, loadRM32_sib _ _ h3 h4]
    exact conclude_error_raised _ s _
  · rw [exec_movRm32Imm32, storeRM32_sib _ _ h3 h4]
    exact conclude_error_raised _ s _
  · rw [exec_incRm32, modifyRM32_sib _ _ h3 h4]
    exact conclude_error_raised _ s _

/-- Settles O20: what decodes is an encoding, and an encoding has the length its kind and ModRM byte give. -/
theorem consumedBytesAreTheLength : Obligations.ConsumedBytesAreTheLength := by
  intro op b bs rest i h
  obtain ⟨hwf, hbytes⟩ := decode_eq_ok.mp h
  obtain ⟨rfl, htail⟩ := List.cons.inj hbytes
  have hkind : dispatch i.opcode = some i.kind := by rw [Instr.opcode_eq_kind_opcode, dispatch_kind_opcode]
  constructor
  · rw [hbytes, List.length_append, encode_length, Nat.add_comm]
  · rw [decoderPort_hasModRM hkind, decoderPort_immSize hkind]
    exact Instr.length_eq hwf htail.symm

end Sys2Proof
end

section
/-! PROOFS. The ports of the x86_decoder, the modrm_decoder and the effective_address_calculator (30_encoding.md R50, R57,
R60) agree with the decoder and with Resolve. -/

namespace Sys2Proof

open Machine

/-! ### A ModRM group that ends too early -/

theorem takeSib_error {mod : BitVec 2} {rm : BitVec 3} {bs : List Byte} {e : Reject} (h : takeSib mod rm bs = .error e) :
    e = .truncated ∧ bs.length < sibSize mod rm := by
  unfold takeSib at h
  split at h
  next hs =>
    cases bs with
    | nil => cases h; exact ⟨rfl, by simp [sibSize, hs]⟩
    | cons b bs => cases h
  · cases h

theorem takeSib_length {mod : BitVec 2} {rm : BitVec 3} {bs rest : List Byte} {sib : Option Byte}
    (h : takeSib mod rm bs = .ok (sib, rest)) : bs.length = rest.length + sibSize mod rm := by
  unfold takeSib at h
  split at h
  next hs =>
    cases bs with
    | nil => cases h
    | cons b bs => cases h; simp [sibSize, hs]
  next hs => cases h; simp [sibSize, hs]

theorem takeDword_error_length {bs : List Byte} {e : Reject} (h : takeDword bs = .error e) : bs.length < 4 := by
  unfold takeDword at h
  split at h
  · cases h
  next hshort =>
    match bs with
    | [] | [_] | [_, _] | [_, _, _] => simp
    | b0 :: b1 :: b2 :: b3 :: bs => exact absurd rfl (hshort b0 b1 b2 b3 bs)

theorem takeDisp_error {mod : BitVec 2} {rm : BitVec 3} {bs : List Byte} {e : Reject}
    (h : takeDisp mod rm bs = .error e) : e = .truncated ∧ bs.length < dispSize mod rm := by
  unfold takeDisp at h
  split at h
  next h32 =>
    split at h
    · cases h
    next hd => cases h; exact ⟨takeDword_error hd, by simpa [dispSize, h32] using takeDword_error_length hd⟩
  next h32 =>
    split at h
    next h8 =>
      cases bs with
      | nil => cases h; exact ⟨rfl, by simp [dispSize, Disp32Class, h8]⟩
      | cons b bs => cases h
    · cases h

/-- A ModRM group is rejected only for ending before the length its first byte asks for. -/
theorem takeModRM_error {b : Byte} {bs : List Byte} {e : Reject} (h : takeModRM (b :: bs) = .error e) :
    e = .truncated ∧ bs.length + 1 < groupLength b := by
  simp only [takeModRM, takeByte] at h
  rw [groupLength_eq, modOf, rmOf]
  split at h
  next hsib =>
    cases h
    obtain ⟨rfl, hshort⟩ := takeSib_error hsib
    exact ⟨rfl, by omega⟩
  next sib bs' hsib =>
    have hlen := takeSib_length hsib
    split at h
    next hdisp =>
      cases h
      obtain ⟨rfl, hshort⟩ := takeDisp_error hdisp
      exact ⟨rfl, by omega⟩
    · cases h

/-- A beginning of the bytes at a ModRM byte is read as a group when it is long enough. -/
theorem takeModRM_of_length {b : Byte} {bs cs : List Byte} (hpre : bs <+: b :: cs) (hlen : groupLength b ≤ bs.length) :
    ∃ d rest, takeModRM bs = .ok (d, rest) := by
  cases bs with
  | nil => rw [groupLength_eq] at hlen; simp at hlen
  | cons b' bs =>
    obtain ⟨rfl, -⟩ := List.cons_prefix_cons.mp hpre
    cases h : takeModRM (b' :: bs) with
    | ok p => exact ⟨p.1, p.2, rfl⟩
    | error e =>
      have hshort := (takeModRM_error h).2
      rw [List.length_cons] at hlen
      omega

/-- A beginning of the bytes at a ModRM byte that is too short is rejected as truncated. -/
theorem takeModRM_truncated {b : Byte} {bs cs : List Byte} (hpre : bs <+: b :: cs) (hlen : bs.length < groupLength b) :
    takeModRM bs = .error .truncated := by
  cases bs with
  | nil => rfl
  | cons b' bs =>
    obtain ⟨rfl, -⟩ := List.cons_prefix_cons.mp hpre
    cases h : takeModRM (b' :: bs) with
    | ok p =>
      have hread := takeModRM_length h
      obtain ⟨-, hbytes⟩ := takeModRM_eq_ok.mp h
      obtain ⟨rfl, -⟩ := List.cons.inj hbytes
      rw [groupLength_eq, modOf_byte, rmOf_byte] at hlen
      omega
    | error e => rw [(takeModRM_error h).1]

end Sys2Proof

namespace Sys2Proof.Machine

/-! ### The modrm_decoder's port -/

/-- The bytes before the first one out of bounds are fewer than `n` exactly when one of the first `n` is. -/
theorem length_takeWhile_lt_iff {l : List (Byte × Bool)} {n : Nat} (hn : n ≤ l.length) :
    (l.takeWhile fun c => !c.2).length < n ↔ ((l.map Prod.snd).take n).any id = true := by
  induction l generalizing n with
  | nil => simp at hn; simp [hn]
  | cons c l ih =>
    cases n with
    | zero => simp
    | succ n =>
      obtain ⟨b, oob⟩ := c
      cases oob with
      | false => simpa using ih (by simpa using hn)
      | true => simp

/-- The bytes of the port with their out-of-bounds marks, in address order. -/
def ModRMPortIn.marked (p : ModRMPortIn) : List (Byte × Bool) :=
  [(p.b0, p.oob0), (p.b1, p.oob1), (p.b2, p.oob2), (p.b3, p.oob3), (p.b4, p.oob4), (p.b5, p.oob5)]

/-- The bytes of the port before the first one out of bounds. -/
def ModRMPortIn.readable (p : ModRMPortIn) : List Byte := (p.marked.takeWhile fun c => !c.2).map Prod.fst

theorem ModRMPortIn.readable_prefix (p : ModRMPortIn) : p.readable <+: [p.b0, p.b1, p.b2, p.b3, p.b4, p.b5] :=
  (List.takeWhile_prefix _).map Prod.fst

theorem ModRMPortIn.readable_length_lt_iff (p : ModRMPortIn) {n : Nat} (hn : n ≤ 6) :
    p.readable.length < n ↔ p.oobWithin n = true := by
  rw [ModRMPortIn.readable, List.length_map]
  exact length_takeWhile_lt_iff (l := p.marked) hn

/-- Every byte is the ModRM byte of a well-formed descriptor: of the one read from it and five zeros. -/
theorem exists_wf_of_byte (b : Byte) : ∃ d : ModRM, d.wf = true ∧ b = d.byte := by
  have hlen : groupLength b ≤ (b :: List.replicate 5 0#8).length := by
    rw [groupLength_eq, sibSize, dispSize]
    split <;> split_ifs <;> simp
  obtain ⟨d, rest, h⟩ := takeModRM_of_length (List.prefix_refl _) hlen
  obtain ⟨hwf, hbytes⟩ := takeModRM_eq_ok.mp h
  exact ⟨d, hwf, (List.cons.inj hbytes).1⟩

/-- The kind of a displacement, as the port names it. -/
def dispKindOf : Disp → DispKind
  | .none => .none
  | .disp8 _ => .disp8
  | .disp32 _ => .disp32

/-- The port's test of (mod, rm) for a SIB byte finds the descriptor's. -/
theorem decide_sib {d : ModRM} (hwf : d.wf = true) : decide (d.mod ≠ 3#2 ∧ d.rm = 4#3) = d.sib.isSome := by
  simp only [← ModRM.sib_isSome_iff hwf, Bool.decide_eq_true]

/-- The port's test of (mod, rm) for a displacement finds the descriptor's. -/
theorem dispKind_eq {d : ModRM} (hwf : d.wf = true) :
    (if d.mod = 2#2 ∨ d.mod = 0#2 ∧ d.rm = 5#3 then DispKind.disp32 else if d.mod = 1#2 then .disp8 else .none) =
      dispKindOf d.disp := by
  rcases disp_classes d.mod d.rm with h | h | h
  · obtain ⟨v, hv⟩ := ModRM.exists_disp32 hwf h
    rw [hv, if_pos h.symm, dispKindOf]
  · obtain ⟨v, hv⟩ := ModRM.exists_disp8 hwf h
    simp [hv, h, dispKindOf]
  · rw [ModRM.disp_eq_none hwf h]
    rcases h with hmod | ⟨hmod, hrm⟩ <;> simp [dispKindOf, *]

/-- `len` and `err` of the port are those of any descriptor with that ModRM byte. -/
theorem modrmPort_len_err {p : ModRMPortIn} {d : ModRM} (hwf : d.wf = true) (hb0 : p.b0 = d.byte) :
    (modrmPort p).len = BitVec.ofNat 3 d.length ∧
      (modrmPort p).err = if p.oobWithin d.length then some .outOfBounds else none := by
  simp only [modrmPort, hb0, ModRM.byte_mod, ModRM.byte_rm, decide_sib hwf, dispKind_eq hwf]
  obtain ⟨mod, regOrOpcode, rm, sib, disp⟩ := d
  cases sib <;> cases disp <;> exact ⟨rfl, rfl⟩

/-- The port's fields, when the encoding of a descriptor lies at its bytes. -/
theorem modrmPort_of_prefix {p : ModRMPortIn} {d : ModRM} (hwf : d.wf = true)
    (hpre : encodeModRM d <+: [p.b0, p.b1, p.b2, p.b3, p.b4, p.b5]) :
    (modrmPort p).mod = d.mod ∧ (modrmPort p).regOrOpcode = d.regOrOpcode ∧ (modrmPort p).rm = d.rm ∧
      (modrmPort p).sib = d.sib ∧ (modrmPort p).dispKind = dispKindOf d.disp ∧
      (modrmPort p).disp = (if d.disp = .none then none else some d.disp.toWord) := by
  obtain ⟨hb0, htail⟩ := List.cons_prefix_cons.mp hpre
  simp only [modrmPort, ← hb0, ModRM.byte_mod, ModRM.byte_regOrOpcode, ModRM.byte_rm, decide_sib hwf, dispKind_eq hwf]
  obtain ⟨mod, regOrOpcode, rm, sib, disp⟩ := d
  match sib, disp with
  | none, .none => simp [dispKindOf]
  | none, .disp8 v =>
    have h1 : v = p.b1 := by simpa [Disp.bytes] using htail
    simp [dispKindOf, Disp.toWord, h1]
  | none, .disp32 v =>
    obtain ⟨h1, h2, h3, h4⟩ := by simpa [Disp.bytes, dwordBytes] using htail
    simp [dispKindOf, Disp.toWord, ← h1, ← h2, ← h3, ← h4]
  | some sib, .none =>
    have h1 : sib = p.b1 := by simpa [Disp.bytes] using htail
    simp [dispKindOf, h1]
  | some sib, .disp8 v =>
    obtain ⟨h1, h2⟩ := by simpa [Disp.bytes] using htail
    simp [dispKindOf, Disp.toWord, h1, ← h2]
  | some sib, .disp32 v =>
    obtain ⟨h1, h2, h3, h4, h5⟩ := by simpa [Disp.bytes, dwordBytes] using htail
    simp [dispKindOf, Disp.toWord, h1, ← h2, ← h3, ← h4, ← h5]

theorem modrmPort_len (p : ModRMPortIn) : (modrmPort p).len.toNat = groupLength p.b0 := by
  obtain ⟨d, hwf, hb0⟩ := exists_wf_of_byte p.b0
  have hle := d.length_le
  rw [(modrmPort_len_err hwf hb0).1, hb0, ← ModRM.length_eq_groupLength hwf, BitVec.toNat_ofNat]
  omega

/-- The port errs exactly when the readable bytes are fewer than the group's. -/
theorem modrmPort_err (p : ModRMPortIn) :
    (modrmPort p).err = if p.readable.length < groupLength p.b0 then some .outOfBounds else none := by
  obtain ⟨d, hwf, hb0⟩ := exists_wf_of_byte p.b0
  simp only [(modrmPort_len_err hwf hb0).2, hb0, ← ModRM.length_eq_groupLength hwf,
    p.readable_length_lt_iff d.length_le]

/-- With as many readable bytes as the group has, ModRMDecode reads them, and the port's fields are what it answers. -/
theorem modrmPort_agrees {p : ModRMPortIn} (h : groupLength p.b0 ≤ p.readable.length) :
    ∃ d rest, takeModRM p.readable = .ok (d, rest) ∧ (modrmPort p).mod = d.mod ∧
      (modrmPort p).regOrOpcode = d.regOrOpcode ∧ (modrmPort p).rm = d.rm ∧ (modrmPort p).sib = d.sib ∧
      (modrmPort p).dispKind = dispKindOf d.disp ∧
      (modrmPort p).disp = (if d.disp = .none then none else some d.disp.toWord) ∧
      p.readable.length = rest.length + groupLength p.b0 := by
  obtain ⟨d, rest, hread⟩ := takeModRM_of_length p.readable_prefix h
  obtain ⟨hwf, hbytes⟩ := takeModRM_eq_ok.mp hread
  have hpre : encodeModRM d <+: [p.b0, p.b1, p.b2, p.b3, p.b4, p.b5] :=
    (hbytes ▸ List.prefix_append _ rest).trans p.readable_prefix
  obtain ⟨hb0, -⟩ := List.cons_prefix_cons.mp hpre
  obtain ⟨hmod, hreg, hrm, hsib, hkind, hdisp⟩ := modrmPort_of_prefix hwf hpre
  refine ⟨d, rest, hread, hmod, hreg, hrm, hsib, hkind, hdisp, ?_⟩
  rw [hbytes, List.length_append, Laws.encodeModRM_length, ModRM.length_eq_groupLength hwf, hb0, Nat.add_comm]

/-! ### The effective_address_calculator's port -/

/-- A displacement enters the effective address by its word alone. -/
theorem effectiveAddress_congr {disp disp' : Disp} (h : disp.toWord = disp'.toWord) (mod : BitVec 2) (rm : BitVec 3)
    (base : Word) : effectiveAddress mod rm disp base = effectiveAddress mod rm disp' base := by
  rw [effectiveAddress, effectiveAddress, h]

/-- The port's outputs as a function of what Resolve answers. -/
def eacOut : Except ErrorKind Loc → EacPortOut
  | .ok loc => { loc := some loc, err := none }
  | .error k => { loc := none, err := some k }

theorem eacPort_eq (x : RegFile) (d : ModRM) :
    eacPort d.mod d.rm (dispKindOf d.disp) d.disp.toWord (x.get32 (Reg32.ofId d.rm)) = eacOut (resolve x d) := by
  unfold eacPort
  simp only [resolve, ModRM.rmReg]
  rw [effectiveAddress_congr (disp' := d.disp) (by cases d.disp <;> rfl)]
  cases effectiveAddress d.mod d.rm d.disp (x.get32 (Reg32.ofId d.rm)) <;> rfl

/-! ### The x86_decoder's port -/

theorem decoderPort_err_unmapped {op : Byte} (h : dispatch op = none) (field : Option (BitVec 3)) :
    (decoderPort op field).err = some .unknownOpcode := by
  simp [decoderPort, h]

theorem decoderPort_err_no_field {op : Byte} {kind : OpKind} (h : dispatch op = some kind) :
    (decoderPort op none).err = none := by
  cases kind <;> simp [decoderPort, h]

/-- With a ModRM field, a mapped opcode errs exactly on the sub-opcodes R49 does not list. -/
theorem decoderPort_err_field {op : Byte} {kind : OpKind} (h : dispatch op = some kind) (b : Byte) :
    (decoderPort op (some (regOf b))).err = if SubOpcodeUnlisted kind b then some .notImplemented else none := by
  cases kind <;> simp [decoderPort, h, SubOpcodeUnlisted]

theorem decoderPort_err_field_iff {op : Byte} {kind : OpKind} (h : dispatch op = some kind) (b : Byte) :
    (decoderPort op (some (regOf b))).err = some .notImplemented ↔ SubOpcodeUnlisted kind b := by
  rw [decoderPort_err_field h]
  split <;> simp [*]

/-- A mapped opcode errs with NotImplemented or not at all. -/
theorem decoderPort_err_mapped {op : Byte} {kind : OpKind} (h : dispatch op = some kind) (field : Option (BitVec 3)) :
    (decoderPort op field).err = some .notImplemented ∨ (decoderPort op field).err = none := by
  cases field with
  | none => exact .inr (decoderPort_err_no_field h)
  | some g =>
    have hg : regOf (ModRM.byte ⟨0, g, 0, none, .none⟩) = g := regOf_byte _
    rw [← hg, decoderPort_err_field h]
    exact ite_eq_or_eq _ _ _

end Sys2Proof.Machine

namespace Sys2Proof

open Machine

/-! ### The obligations -/

/-- Settles O49: with enough readable bytes by `modrmPort_agrees`; with fewer, both ends report it. -/
theorem modRMPortAgreesWithTheDecoder : Obligations.ModRMPortAgreesWithTheDecoder := by
  intro p bs
  rw [modrmPort_err]
  by_cases hlen : p.readable.length < groupLength p.b0
  · rw [if_pos hlen]
    exact ⟨nofun, fun _ => ⟨rfl, takeModRM_truncated p.readable_prefix hlen⟩⟩
  · rw [if_neg hlen]
    refine ⟨fun _ => ?_, fun h => absurd rfl h⟩
    obtain ⟨d, rest, hread, hmod, hreg, hrm, hsib, hkind, hdisp, hlength⟩ := modrmPort_agrees (not_lt.mp hlen)
    refine ⟨d, rest, hread, hmod, hreg, hrm, hsib, hkind.trans ?_, hdisp, ?_, modrmPort_len p⟩
    · cases d.disp <;> rfl
    · rw [modrmPort_len]
      exact hlength

/-- Settles O50: the port's outputs are what Resolve answers, by `eacPort_eq`. -/
theorem eacPortResolvesTheOperand : Obligations.EacPortResolvesTheOperand := by
  intro x d kind hkind
  obtain rfl : kind = dispKindOf d.disp := hkind.trans (by cases d.disp <;> rfl)
  rw [eacPort_eq]
  exact ⟨fun loc h => by rw [h, eacOut], fun k h => by rw [h, eacOut]⟩

/-- Settles O51: `err` by cases on the dispatch and on the field, the decoder's rejection by `decode_eq_unsupported`. -/
theorem decoderPortReportsTheDecodersErrors : Obligations.DecoderPortReportsTheDecodersErrors := by
  refine ⟨fun op field => ?_, fun op => ?_, fun op b => ?_, fun op d rest hwf hmodrm => ?_, fun op field r hkind => ?_⟩
  · rcases hop : dispatch op with _ | kind
    · simp [decoderPort_err_unmapped hop]
    · rcases decoderPort_err_mapped hop field with h | h <;> simp [h]
  · rcases hop : dispatch op with _ | kind
    · simp [decoderPort_err_unmapped hop]
    · simp [decoderPort_err_no_field hop]
  · rcases hop : dispatch op with _ | kind
    · simp [decoderPort_err_unmapped hop]
    · rw [decoderPort_err_field_iff hop]
      simp
  · rcases hop : dispatch op with _ | kind
    · simp [decoderPort, hop] at hmodrm
    · rw [decoderPort_hasModRM hop] at hmodrm
      rw [decode_eq_unsupported rest hop hwf hmodrm, ← regOf_byte, decoderPort_err_field_iff hop]
  · have hop : dispatch op = some (.movR32Imm32 r) := hkind
    refine ⟨by simp [decoderPort, hop], ?_⟩
    rw [opcode_of_dispatch hop, OpKind.opcode, BitVec.extractLsb'_append_eq_right, Reg32.ofId_id]

end Sys2Proof
end

section
/-! PROOFS. The dispatch table of 30_encoding.md R47, row by row, and words written out from the spec's encodings. -/

namespace Sys2Proof

/-- B8 + r is the five bits 10111 and then the three bits of r (30_encoding.md R56). -/
theorem opcode_movR32Imm32 (r : BitVec 3) :
    0xB8#8 + r.zeroExtend 8 = (OpKind.movR32Imm32 (Reg32.ofId r)).opcode := by
  revert r
  decide

/-- The columns of the table: which kinds have a ModRM byte (30_encoding.md R47). -/
theorem OpKind.hasModRM_iff (kind : OpKind) : kind.hasModRM = true ↔
    kind ∈ [OpKind.addRm32R32, .group83, .movRm32R32, .movR32Rm32, .movRm32Imm32, .groupFF] := by
  cases kind <;> simp [OpKind.hasModRM]

/-- Settles O13: the rows by `dispatch_kind_opcode`, the other bytes by `dispatch_eq_none`, the columns by their
definitions. -/
theorem dispatchFollowsTheTable : Obligations.DispatchFollowsTheTable := by
  refine ⟨fun r => ?_, dispatch_kind_opcode .addRm32R32, dispatch_kind_opcode .group83, dispatch_kind_opcode .movRm32R32,
    dispatch_kind_opcode .movR32Rm32, dispatch_kind_opcode .movRm32Imm32, dispatch_kind_opcode .groupFF,
    dispatch_kind_opcode .jmpRel32, dispatch_kind_opcode .jmpRel8, fun _ => dispatch_eq_none, ?_, OpKind.hasModRM_iff,
    fun _ => rfl, rfl, rfl, rfl, rfl, rfl, rfl, rfl, rfl⟩
  · rw [opcode_movR32Imm32, dispatch_kind_opcode]
  · decide

/-- Settles O19: each word is evaluated by the decoder. -/
theorem specWordsDecode : Obligations.SpecWordsDecode :=
  ⟨rfl, rfl, rfl, rfl, rfl⟩

end Sys2Proof
end

section
/-! PROOFS. The bounds check of the memory port (20_memory.md R33, 40_execution_cycle.md R74) and the execution cycle
(R65): a step is the decoded instruction and then the sentinel test, and where it leaves `eip` (R72). -/

namespace Sys2Proof.Machine

/-! ### Accesses outside memory -/

theorem Memory.inBounds_eq_false_iff {m : Memory} {a : Word} : m.inBounds a = false ↔ m.capacity ≤ a.toNat := by
  rw [← Bool.not_eq_true, Memory.inBounds_iff, not_lt]

theorem State.dwordInBounds_iff_dwordInside {s : State} {a : Word} :
    s.mem.dwordInBounds a = true ↔ s.DwordInside a :=
  s.mem.dwordInBounds_iff a

theorem State.dwordInBounds_eq_false_iff {s : State} {a : Word} :
    s.mem.dwordInBounds a = false ↔ ¬s.DwordInside a := by
  rw [← Bool.not_eq_true, State.dwordInBounds_iff_dwordInside]

theorem writeRM32_memory {s : State} {a : Word} (h : s.mem.dwordInBounds a = true) (v eipNew : Word) :
    writeRM32 s (.memory a) v eipNew = .ok { regW := none, memW := some (a, v), eipNew := eipNew } := by
  simp [writeRM32, h]

theorem writeRM32_outside {s : State} {a : Word} (h : s.mem.dwordInBounds a = false) (v eipNew : Word) :
    writeRM32 s (.memory a) v eipNew = .error .outOfBounds := by
  simp [writeRM32, h]

/-! ### Where an instruction leaves `eip` -/

variable {s t : State} {i : Instr}

theorem eipAfter_of_not_jump (h32 : ∀ rel, i ≠ .jmpRel32 rel) (h8 : ∀ rel, i ≠ .jmpRel8 rel) :
    eipAfter s i = s.eip + BitVec.ofNat 32 i.length := by
  cases i with
  | jmpRel32 rel => exact absurd rfl (h32 rel)
  | jmpRel8 rel => exact absurd rfl (h8 rel)
  | _ => rfl

theorem eipAfter_jmpRel32 (s : State) (rel : Word) : eipAfter s (.jmpRel32 rel) = s.eip + 5#32 + rel := rfl

theorem eipAfter_jmpRel8 (s : State) (rel : Byte) : eipAfter s (.jmpRel8 rel) = s.eip + 2#32 + sext32 rel := rfl

/-- A raised error passes the sentinel test as it is, whatever its `eip` (40_execution_cycle.md R71). -/
theorem sentinelTest_raiseError (k : ErrorKind) (op : Byte) (s : State) :
    sentinelTest (raiseError k op s) = raiseError k op s := by
  simp [sentinelTest]

/-- An instruction and the sentinel test after it raise an error, or leave `eip` at `eipAfter`. -/
theorem afterInstr_exec_eip (h : afterInstr (exec i s) = .next t) :
    (∃ k, t.Raised k) ∨ t.eip = eipAfter s i := by
  obtain ⟨u, hu, rfl⟩ := afterInstr_cases h
  rcases exec_cases hu with ⟨e, rfl, ⟨heip, -⟩ | rfl⟩ | ⟨k, -, rfl⟩
  · exact .inr (by rw [sentinelTest_eip, commit_eip, heip])
  · exact .inr (by rw [sentinelTest_eip, commit_eip])
  · exact .inl ⟨k, by rw [sentinelTest_raiseError]; exact raiseError_raised k i.opcode s⟩

/-- The bytes a decoded instruction consumes are as many as its length. -/
theorem decode_consumed {bs rest : List Byte} (h : decode bs = .ok (i, rest)) : bs.length - rest.length = i.length := by
  obtain ⟨-, rfl⟩ := decode_eq_ok.mp h
  rw [List.length_append, encode_length, Nat.add_sub_cancel]

/-! ### The obligations -/

/-- Settles O12: each access by its bounds check, and the check by the byte addresses. -/
theorem everyByteOfAnAccessIsChecked : Obligations.EveryByteOfAnAccessIsChecked := by
  intro s a v eipNew
  refine ⟨fun h => ?_, fun h => ?_, fun h => ?_, fun h => ?_⟩
  · exact memRead1_ok ((s.mem.inBounds_iff a).mpr h)
  · exact memRead1_error (Memory.inBounds_eq_false_iff.mpr h)
  · have hin := State.dwordInBounds_iff_dwordInside.mpr h
    exact ⟨memRead4_ok hin, writeRM32_memory hin v eipNew⟩
  · have hout := State.dwordInBounds_eq_false_iff.mpr h
    exact ⟨memRead4_error hout, writeRM32_outside hout v eipNew⟩

/-- Settles O36: this is `step_of_decode_ok`, where bytes that decode show `eip` to be inside memory. -/
theorem stepRunsTheDecodedInstruction : Obligations.StepRunsTheDecodedInstruction :=
  fun _ _ _ => step_of_decode_ok

/-- Settles O43: without an error `eip` is `eipAfter`, which adds the length, the bytes consumed, or is the target. -/
theorem eipAdvancesByTheLength : Obligations.EipAdvancesByTheLength := by
  intro s t i rest hrun hdec hstep hok
  rw [step_of_decode_ok hrun hdec] at hstep
  have heip : t.eip = eipAfter s i := by
    rcases afterInstr_exec_eip hstep with ⟨k, faultEip, opcode, hraised⟩ | heip
    · exact absurd hraised (hok k faultEip opcode)
    · exact heip
  refine ⟨fun h32 h8 => ?_, fun rel hi => ?_, fun rel hi => ?_⟩
  · rw [heip, eipAfter_of_not_jump h32 h8, decode_consumed hdec]
  · rw [heip, hi, eipAfter_jmpRel32]
  · rw [heip, hi, eipAfter_jmpRel8]

end Sys2Proof.Machine
end

section
/-! PROOFS. The MOV family (41_mov.md R78 to R81): the whole next state in each operand form. -/

namespace Sys2Proof

/-- A register-direct ModRM group is its ModRM byte alone (30_encoding.md R54). -/
theorem ModRM.length_register {d : ModRM} (hwf : d.wf = true) (hmod : d.mod = 3#2) : d.length = 1 := by
  have hsib : d.sib = none := ModRM.sib_eq_none hwf (fun h => h.1 hmod)
  have hdisp : d.disp = .none := ModRM.disp_eq_none hwf (.inl hmod)
  simp [ModRM.length, hsib, hdisp, Disp.size]

end Sys2Proof

namespace Sys2Proof.Machine

/-! ### What a concluded execute phase makes of the state

The next state written out, for a form that writes a register, stores a dword, or raises an error. -/

theorem conclude_register_write (i : Instr) (s : State) (r : Reg32) (v : Word) :
    conclude i s (.ok { regW := some (r, v), memW := none, eipNew := nextEip s i }) =
      .next { s with regs := s.regs.set32 r v, eip := s.eip + BitVec.ofNat 32 i.length } := rfl

theorem conclude_memory_write (i : Instr) (s : State) (a v : Word) :
    conclude i s (.ok { regW := none, memW := some (a, v), eipNew := nextEip s i }) =
      .next { s with mem := s.mem.writeDword a v, eip := s.eip + BitVec.ofNat 32 i.length } := rfl

theorem conclude_error_faultedWith (i : Instr) (s : State) (k : ErrorKind) :
    conclude i s (.error k) = .next (s.faultedWith k i.opcode) := rfl

/-! ### A form that stores to its `rm` operand -/

section StoreForm

variable {i : Instr} {s : State} {d : ModRM} {v a : Word}

theorem conclude_storeRM32_register (hmod : d.mod = 3#2) :
    conclude i s (storeRM32 s d v (nextEip s i)) =
      .next { s with regs := s.regs.set32 (Reg32.ofId d.rm) v, eip := s.eip + BitVec.ofNat 32 i.length } := by
  rw [storeRM32_register v _ hmod, conclude_register_write, ModRM.rmReg]

theorem conclude_storeRM32_inside (hres : resolve s.regs d = .ok (.memory a)) (hin : s.DwordInside a) :
    conclude i s (storeRM32 s d v (nextEip s i)) =
      .next { s with mem := s.mem.writeDword a v, eip := s.eip + BitVec.ofNat 32 i.length } := by
  rw [storeRM32_memory v _ hres (State.dwordInBounds_iff_dwordInside.mpr hin), conclude_memory_write]

theorem conclude_storeRM32_outside (hres : resolve s.regs d = .ok (.memory a)) (hout : ¬s.DwordInside a) :
    conclude i s (storeRM32 s d v (nextEip s i)) = .next (s.faultedWith .outOfBounds i.opcode) := by
  rw [storeRM32_outside v _ hres (State.dwordInBounds_eq_false_iff.mpr hout), conclude_error_faultedWith]

end StoreForm

/-! ### The obligations -/

/-- Settles O23: the execute phase is one register write, and the length is 5. -/
theorem movR32Imm32WritesItsRegister : Obligations.MovR32Imm32WritesItsRegister := by
  intro r imm s
  rw [exec_movR32Imm32, conclude_register_write, Instr.length]

/-- Settles O24: a store of the source register, in each form of the operand. -/
theorem movRm32R32MovesTheRegister : Obligations.MovRm32R32MovesTheRegister := by
  intro d s
  rw [exec_movRm32R32, ModRM.reg]
  refine ⟨fun hwf hmod => ?_, fun a hres => ⟨fun hin => ?_, fun hout => ?_⟩⟩
  · rw [conclude_storeRM32_register hmod, Instr.length, ModRM.length_register hwf hmod]
  · rw [conclude_storeRM32_inside hres hin, Instr.length]
  · rw [conclude_storeRM32_outside hres hout, Instr.opcode]

/-- Settles O25: a load of the operand's value, in each form of the operand. -/
theorem movR32Rm32LoadsTheRegister : Obligations.MovR32Rm32LoadsTheRegister := by
  intro d s
  rw [exec_movR32Rm32, ModRM.reg]
  refine ⟨fun hwf hmod => ?_, fun a hres => ⟨fun hin => ?_, fun hout => ?_⟩⟩
  · rw [loadRM32_register _ _ hmod, conclude_register_write, Instr.length, ModRM.length_register hwf hmod, ModRM.rmReg]
  · rw [loadRM32_memory _ _ hres (State.dwordInBounds_iff_dwordInside.mpr hin), conclude_register_write, Instr.length]
  · rw [loadRM32_outside _ _ hres (State.dwordInBounds_eq_false_iff.mpr hout), conclude_error_faultedWith, Instr.opcode]

/-- Settles O26: a store of the immediate, in each form of the operand; the `regOrOpcode` field does not enter. -/
theorem movRm32Imm32MovesTheImmediate : Obligations.MovRm32Imm32MovesTheImmediate := by
  intro d imm s
  rw [exec_movRm32Imm32]
  refine ⟨fun hwf hmod => ?_, fun a hres => ⟨fun hin => ?_, fun hout => ?_⟩⟩
  · rw [conclude_storeRM32_register hmod, Instr.length, ModRM.length_register hwf hmod]
  · rw [conclude_storeRM32_inside hres hin, Instr.length]
  · rw [conclude_storeRM32_outside hres hout, Instr.opcode]

end Sys2Proof.Machine
end

section
/-! PROOFS. What an instruction leaves unchanged (10_state.md section 4): first for the effects that an execute phase
may produce, then for the three execute phases with an `rm` operand. -/

namespace Sys2Proof.Machine

/-! ### Frames of the end of an instruction -/

/-- The effects write register `r` and store nothing. -/
def Effects.WritesOnlyRegister (e : Effects) (r : Reg32) : Prop := (∃ v, e.regW = some (r, v)) ∧ e.memW = none

/-- The effects store a dword at `a` and write no register. -/
def Effects.StoresOnlyAt (e : Effects) (a : Word) : Prop := e.regW = none ∧ ∃ v, e.memW = some (a, v)

variable {i : Instr} {s t : State} {x : Except ErrorKind Effects} {d : ModRM} {v p a : Word}

theorem conclude_commonFrame (h : conclude i s x = .next t) : CommonFrame s t := by
  rcases conclude_cases h with ⟨e, -, rfl⟩ | ⟨k, -, rfl⟩
  · exact ⟨by simp, commit_eflags s e, .inl (commit_status s e)⟩
  · exact ⟨rfl, rfl, .inr ⟨k, i.opcode, rfl⟩⟩

theorem conclude_registerFrame {r : Reg32} (hx : ∀ e, x = .ok e → e.WritesOnlyRegister r)
    (h : conclude i s x = .next t) : RegisterFrame s t r := by
  have hcommon := conclude_commonFrame h
  rcases conclude_cases h with ⟨e, he, rfl⟩ | ⟨k, -, rfl⟩
  · obtain ⟨⟨v, hreg⟩, hmem⟩ := hx e he
    refine ⟨hcommon, fun q hq => ?_, fun b => ?_⟩
    · rw [commit_regs, hreg, commitRegs_some, RegFile.get32_set32_other _ v hq]
    · rw [commit_mem, hmem, commitMem_none]
  · exact ⟨hcommon, fun _ _ => rfl, fun _ => rfl⟩

theorem conclude_storeFrame (hwf : s.mem.wf) (hx : ∀ e, x = .ok e → e.StoresOnlyAt a)
    (h : conclude i s x = .next t) : StoreFrame s t a := by
  have hcommon := conclude_commonFrame h
  rcases conclude_cases h with ⟨e, he, rfl⟩ | ⟨k, -, rfl⟩
  · obtain ⟨hreg, v, hmem⟩ := hx e he
    obtain ⟨-, -, hrising, -⟩ := hwf
    refine ⟨hcommon, fun q => ?_, fun b hb => ?_⟩
    · rw [commit_regs, hreg, commitRegs_none]
    · rw [commit_mem, hmem, commitMem_some,
        Memory.readByte_writeDword_other hrising v (fun k hk hbk => hb ⟨k, hk, hbk⟩)]
  · exact ⟨hcommon, fun _ => rfl, fun _ _ => rfl⟩

/-! ### The effects of each execute phase -/

theorem writeRM32_register_writesOnly {r : Reg32} {e : Effects} (h : writeRM32 s (.register r) v p = .ok e) :
    e.WritesOnlyRegister r := by
  cases h
  exact ⟨⟨v, rfl⟩, rfl⟩

theorem writeRM32_memory_storesOnly {e : Effects} (h : writeRM32 s (.memory a) v p = .ok e) : e.StoresOnlyAt a := by
  cases hb : s.mem.dwordInBounds a with
  | true => rw [writeRM32_memory hb] at h; cases h; exact ⟨rfl, v, rfl⟩
  | false => rw [writeRM32_outside hb] at h; cases h

/-- A storing form writes at the operand that `resolve` gives. -/
theorem storeRM32_ok_of_resolve {loc : Loc} {e : Effects} (hres : resolve s.regs d = .ok loc)
    (h : storeRM32 s d v p = .ok e) : writeRM32 s loc v p = .ok e := by
  obtain ⟨loc', hres', hw⟩ := storeRM32_ok h
  obtain rfl : loc = loc' := Except.ok.inj (hres.symm.trans hres')
  exact hw

theorem modifyRM32_ok_of_resolve {op : Word → AluOp} {loc : Loc} {e : Effects} (hres : resolve s.regs d = .ok loc)
    (h : modifyRM32 s d op p = .ok e) : ∃ u, writeRM32 s loc u p = .ok e := by
  obtain ⟨loc', b, hres', -, hw⟩ := modifyRM32_ok h
  obtain rfl : loc = loc' := Except.ok.inj (hres.symm.trans hres')
  exact ⟨_, hw⟩

/-! ### Frames of the execute phases -/

theorem conclude_loadRM32_frame {r : Reg32} (h : conclude i s (loadRM32 s d r p) = .next t) : RegisterFrame s t r := by
  refine conclude_registerFrame (fun e he => ?_) h
  obtain ⟨loc, u, -, -, rfl⟩ := loadRM32_ok he
  exact ⟨⟨u, rfl⟩, rfl⟩

theorem conclude_storeRM32_registerFrame (hmod : d.mod = 3#2) (h : conclude i s (storeRM32 s d v p) = .next t) :
    RegisterFrame s t (Reg32.ofId d.rm) :=
  conclude_registerFrame
    (fun _ he => writeRM32_register_writesOnly (storeRM32_ok_of_resolve (resolve_register hmod) he)) h

theorem conclude_modifyRM32_registerFrame {op : Word → AluOp} (hmod : d.mod = 3#2)
    (h : conclude i s (modifyRM32 s d op p) = .next t) : RegisterFrame s t (Reg32.ofId d.rm) := by
  refine conclude_registerFrame (fun e he => ?_) h
  obtain ⟨u, hw⟩ := modifyRM32_ok_of_resolve (resolve_register hmod) he
  exact writeRM32_register_writesOnly hw

theorem conclude_storeRM32_storeFrame (hwf : s.mem.wf) (hres : resolve s.regs d = .ok (.memory a))
    (h : conclude i s (storeRM32 s d v p) = .next t) : StoreFrame s t a :=
  conclude_storeFrame hwf (fun _ he => writeRM32_memory_storesOnly (storeRM32_ok_of_resolve hres he)) h

theorem conclude_modifyRM32_storeFrame {op : Word → AluOp} (hwf : s.mem.wf)
    (hres : resolve s.regs d = .ok (.memory a)) (h : conclude i s (modifyRM32 s d op p) = .next t) :
    StoreFrame s t a := by
  refine conclude_storeFrame hwf (fun e he => ?_) h
  obtain ⟨u, hw⟩ := modifyRM32_ok_of_resolve hres he
  exact writeRM32_memory_storesOnly hw

/-! ### The obligations -/

/-- Settles O33: each form is the conclusion of an execute phase whose effects write its destination alone. -/
theorem registerDestinationFrame : Obligations.RegisterDestinationFrame := by
  intro s t d r imm imm8
  refine ⟨fun h => ?_, fun h => ?_, fun hmod => ⟨fun h => ?_, fun h => ?_, fun h => ?_, fun h => ?_, fun h => ?_⟩⟩
  · rw [exec_movR32Imm32] at h
    refine conclude_registerFrame (fun e he => ?_) h
    cases he
    exact ⟨⟨imm, rfl⟩, rfl⟩
  · rw [exec_movR32Rm32] at h
    exact conclude_loadRM32_frame h
  · rw [exec_movRm32R32] at h
    exact conclude_storeRM32_registerFrame hmod h
  · rw [exec_movRm32Imm32] at h
    exact conclude_storeRM32_registerFrame hmod h
  · rw [exec_addRm32R32] at h
    exact conclude_modifyRM32_registerFrame hmod h
  · rw [exec_subRm32Imm8] at h
    exact conclude_modifyRM32_registerFrame hmod h
  · rw [exec_incRm32] at h
    exact conclude_modifyRM32_registerFrame hmod h

/-- Settles O34: each form is the conclusion of an execute phase whose effects store at the resolved address alone. -/
theorem memoryDestinationFrame : Obligations.MemoryDestinationFrame := by
  intro s t d imm imm8 a hwf hres
  refine ⟨fun h => ?_, fun h => ?_, fun h => ?_, fun h => ?_, fun h => ?_⟩
  · rw [exec_movRm32R32] at h
    exact conclude_storeRM32_storeFrame hwf hres h
  · rw [exec_movRm32Imm32] at h
    exact conclude_storeRM32_storeFrame hwf hres h
  · rw [exec_addRm32R32] at h
    exact conclude_modifyRM32_storeFrame hwf hres h
  · rw [exec_subRm32Imm8] at h
    exact conclude_modifyRM32_storeFrame hwf hres h
  · rw [exec_incRm32] at h
    exact conclude_modifyRM32_storeFrame hwf hres h

end Sys2Proof.Machine
end

section
/-! PROOFS. The arithmetic family (42_arith.md R82 to R84): the whole next state in each operand form, and the ALU's
results as exact integers modulo 2^32 (R85, 40_execution_cycle.md R77). -/

namespace Sys2Proof.Machine

/-! ### The ALU's results as exact integers, narrowed to 32 bits -/

theorem alu_add_eq_ofNat (a b : Word) : alu (.add a b) = BitVec.ofNat 32 (a.toNat + b.toNat) := by
  rw [BitVec.ofNat_add, BitVec.ofNat_toNat, BitVec.ofNat_toNat, BitVec.setWidth_eq, BitVec.setWidth_eq, alu]

theorem alu_inc_eq_ofNat (a : Word) : alu (.inc a) = BitVec.ofNat 32 (a.toNat + 1) := by
  rw [BitVec.ofNat_add, BitVec.ofNat_toNat, BitVec.setWidth_eq, alu]

/-- The immediate enters as the signed value of its byte (42_arith.md R83). -/
theorem alu_sub_sext32_eq_ofInt (a : Word) (imm : Byte) :
    alu (.sub a (sext32 imm)) = BitVec.ofInt 32 (a.toNat - imm.toInt) := by
  rw [Int.sub_eq_add_neg, BitVec.ofInt_add, BitVec.ofInt_neg, BitVec.ofInt_natCast, BitVec.ofNat_toNat,
    BitVec.setWidth_eq, ← BitVec.sub_eq_add_neg, alu, sext32, BitVec.signExtend]

/-- The unsigned reading of a difference as an exact integer, where `BitVec.toNat_sub` adds the complement. -/
theorem coe_toNat_sub (a b : Word) : ((a - b).toNat : Int) = (a.toNat - b.toNat : Int) % 2 ^ 32 := by
  have hb : b.toNat < 2 ^ 32 := b.isLt
  rw [BitVec.toNat_sub]
  omega

/-! ### A form that reads and writes its `rm` operand -/

section ModifyForm

variable {i : Instr} {s : State} {d : ModRM} {op : Word → AluOp} {a : Word}

theorem conclude_modifyRM32_register (hmod : d.mod = 3#2) :
    conclude i s (modifyRM32 s d op (nextEip s i)) =
      .next { s with
        regs := s.regs.set32 (Reg32.ofId d.rm) (alu (op (s.regs.get32 (Reg32.ofId d.rm))))
        eip := s.eip + BitVec.ofNat 32 i.length } := by
  rw [modifyRM32_register op _ hmod, conclude_register_write, ModRM.rmReg]

theorem conclude_modifyRM32_inside (hres : resolve s.regs d = .ok (.memory a)) (hin : s.DwordInside a) :
    conclude i s (modifyRM32 s d op (nextEip s i)) =
      .next { s with
        mem := s.mem.writeDword a (alu (op (s.mem.readDword a)))
        eip := s.eip + BitVec.ofNat 32 i.length } := by
  rw [modifyRM32_memory op _ hres (State.dwordInBounds_iff_dwordInside.mpr hin), conclude_memory_write]

theorem conclude_modifyRM32_outside (hres : resolve s.regs d = .ok (.memory a)) (hout : ¬s.DwordInside a) :
    conclude i s (modifyRM32 s d op (nextEip s i)) = .next (s.faultedWith .outOfBounds i.opcode) := by
  rw [modifyRM32_outside op _ hres (State.dwordInBounds_eq_false_iff.mpr hout), conclude_error_faultedWith]

end ModifyForm

/-! ### The obligations -/

/-- Settles O27: the operand is replaced by the ALU's sum with the register, in each form of the operand. -/
theorem addRm32R32AddsModulo : Obligations.AddRm32R32AddsModulo := by
  intro d s
  rw [exec_addRm32R32, ModRM.reg]
  refine ⟨fun hwf hmod => ?_, fun a hres => ⟨fun hin => ?_, fun hout => ?_⟩⟩
  · rw [conclude_modifyRM32_register hmod, alu_add_eq_ofNat, Instr.length, ModRM.length_register hwf hmod]
  · rw [conclude_modifyRM32_inside hres hin, alu_add_eq_ofNat, Instr.length]
  · rw [conclude_modifyRM32_outside hres hout, Instr.opcode]

/-- Settles O28: the operand is replaced by the ALU's difference with the sign-extended byte, in each form of the
operand. -/
theorem subRm32Imm8SubtractsTheSignedByte : Obligations.SubRm32Imm8SubtractsTheSignedByte := by
  intro d imm s
  rw [exec_subRm32Imm8]
  refine ⟨fun hwf hmod => ?_, fun a hres => ⟨fun hin => ?_, fun hout => ?_⟩⟩
  · rw [conclude_modifyRM32_register hmod, alu_sub_sext32_eq_ofInt, Instr.length, ModRM.length_register hwf hmod]
  · rw [conclude_modifyRM32_inside hres hin, alu_sub_sext32_eq_ofInt, Instr.length]
  · rw [conclude_modifyRM32_outside hres hout, Instr.opcode]

/-- Settles O29: the operand is replaced by the ALU's successor of it, in each form of the operand. -/
theorem incRm32AddsOne : Obligations.IncRm32AddsOne := by
  intro d s
  rw [exec_incRm32]
  refine ⟨fun hwf hmod => ?_, fun a hres => ⟨fun hin => ?_, fun hout => ?_⟩⟩
  · rw [conclude_modifyRM32_register hmod, alu_inc_eq_ofNat, Instr.length, ModRM.length_register hwf hmod]
  · rw [conclude_modifyRM32_inside hres hin, alu_inc_eq_ofNat, Instr.length]
  · rw [conclude_modifyRM32_outside hres hout, Instr.opcode]

/-- Settles O46: each result is one 32-bit sum or difference, whose unsigned and two's-complement readings are the
exact ones modulo 2^32. -/
theorem aluResultsAreExactModulo : Obligations.AluResultsAreExactModulo := by
  intro a b next r
  refine ⟨fun kind hkind => ?mov, ⟨a + b, rfl, BitVec.toNat_add a b, BitVec.toInt_add a b⟩,
    ⟨a - b, rfl, coe_toNat_sub a b, BitVec.toInt_sub⟩,
    ⟨a + 1#32, rfl, BitVec.toNat_add a 1#32, BitVec.toInt_add a 1#32⟩, fun kind hkind => ?jump⟩
  case mov =>
    simp only [List.mem_cons, List.not_mem_nil, or_false] at hkind
    rcases hkind with rfl | rfl | rfl | rfl <;> rfl
  case jump =>
    simp only [List.mem_cons, List.not_mem_nil, or_false] at hkind
    rcases hkind with rfl | rfl <;> exact ⟨rfl, BitVec.toNat_add next b⟩

end Sys2Proof.Machine
end

section
/-! PROOFS. The jumps (43_jmp.md R86 to R88): each moves `eip` to its target and changes nothing else, and the target is
tested at the two halts alone: the sentinel after the jump, the range at the next fetch. -/

namespace Sys2Proof.Machine

variable {s : State}

/-! ### The target -/

/-- The exact signed sum of R86, narrowed to 32 bits (D6). -/
theorem jumpTarget_nextEip_eq_ofInt (s : State) (i : Instr) (disp : Word) :
    jumpTarget (nextEip s i) disp = BitVec.ofInt 32 (s.eip.toNat + i.length + disp.toInt) := by
  rw [jumpTarget, nextEip, BitVec.ofInt_add, BitVec.ofInt_add, BitVec.ofInt_toInt, BitVec.ofInt_natCast,
    BitVec.ofInt_natCast, BitVec.ofNat_toNat, BitVec.setWidth_eq]

theorem toInt_sext32 (rel : Byte) : (sext32 rel).toInt = rel.toInt :=
  BitVec.toInt_signExtend_of_le (by decide)

/-! ### The jumps as changes of `eip` -/

theorem exec_jmpRel32_eq_next (rel : Word) (s : State) :
    exec (.jmpRel32 rel) s = .next { s with eip := jumpTarget (nextEip s (.jmpRel32 rel)) rel } := rfl

theorem exec_jmpRel8_eq_next (rel : Byte) (s : State) :
    exec (.jmpRel8 rel) s = .next { s with eip := jumpTarget (nextEip s (.jmpRel8 rel)) (sext32 rel) } := rfl

theorem jumpFrame_set_eip (s : State) (target : Word) : JumpFrame s { s with eip := target } :=
  ⟨⟨rfl, rfl, .inl rfl⟩, fun _ => rfl, fun _ => rfl⟩

/-! ### The two halts -/

/-- A running CORE at 0 after an instruction halts (40_execution_cycle.md R71). -/
theorem sentinelTest_of_eip_eq_zero (hrun : s.status = .running) (h : s.eip = 0#32) :
    sentinelTest s = { s with status := .haltedSentinel } :=
  if_pos ⟨hrun, h⟩

theorem sentinelTest_of_eip_ne_zero (h : s.eip ≠ 0#32) : sentinelTest s = s :=
  if_neg fun hzero => h hzero.2

/-- The range halt (40_execution_cycle.md R66). -/
theorem step_of_capacity_le (hrun : s.status = .running) (h : s.mem.capacity ≤ s.eip.toNat) :
    step s = .next { s with status := .haltedRange } := by
  have hfetch : fetch s = .outOfRange := by simp [fetch, Memory.inBounds_eq_false_iff.mpr h]
  rw [step, noStep_eq_none.mpr hrun, hfetch]
  rfl

/-- A step whose bytes decode to an instruction that only moves `eip`. -/
theorem step_of_moves_eip {i : Instr} {rest : List Byte} {target : Word} (hrun : s.status = .running)
    (hwf : i.wf = true) (hbytes : fetchBytes s = encode i ++ rest) (hexec : exec i s = .next { s with eip := target }) :
    step s = .next (sentinelTest { s with eip := target }) := by
  rw [step_of_decode_ok hrun (decode_eq_ok.mpr ⟨hwf, hbytes⟩), hexec, afterInstr_next]

/-! ### The obligations -/

/-- Settles O31: the step is the move of `eip` and the sentinel test, which leaves a target other than 0 to the range
halt of the next step. -/
theorem jumpTargetsAreCheckedAtTheNextFetch : Obligations.JumpTargetsAreCheckedAtTheNextFetch := by
  intro s target hrun hjump
  have hstep : step s = .next (sentinelTest { s with eip := target }) := by
    rcases hjump with ⟨rel, rest, hbytes, rfl⟩ | ⟨rel, rest, hbytes, rfl⟩
    · exact step_of_moves_eip hrun rfl hbytes (exec_jmpRel32_eq_next rel s)
    · exact step_of_moves_eip hrun rfl hbytes (exec_jmpRel8_eq_next rel s)
  refine ⟨fun hzero => ?_, fun hne => ⟨?_, fun hout => ?_⟩⟩
  · rw [hstep, sentinelTest_of_eip_eq_zero (s := { s with eip := target }) hrun hzero]
  · rw [hstep, sentinelTest_of_eip_ne_zero (s := { s with eip := target }) hne]
  · exact step_of_capacity_le (s := { s with eip := target }) hrun hout

/-- Settles O30: each target is the exact signed sum modulo 2^32, with the jump's length and offset. -/
theorem jumpsMoveOnlyEip : Obligations.JumpsMoveOnlyEip := by
  refine ⟨fun rel s => ?_, fun rel s => ?_⟩
  · rw [exec_jmpRel32_eq_next, jumpTarget_nextEip_eq_ofInt]
    rfl
  · rw [exec_jmpRel8_eq_next, jumpTarget_nextEip_eq_ofInt, toInt_sext32]
    rfl

/-- Settles O35: a jump's next state differs from the old one in `eip` alone. -/
theorem jumpsLeaveRegistersAndMemory : Obligations.JumpsLeaveRegistersAndMemory := by
  intro s t rel rel8
  refine ⟨fun h => ?_, fun h => ?_⟩
  · rw [exec_jmpRel32_eq_next] at h
    cases h
    exact jumpFrame_set_eip s _
  · rw [exec_jmpRel8_eq_next] at h
    cases h
    exact jumpFrame_set_eip s _

end Sys2Proof.Machine
end

section
/-! PROOFS. What an instruction answers (60_exceptions.md R96, R102): always the conclusion of its execute phase, whose
error is the one its `rm` operand raises. -/

namespace Sys2Proof

/-- The ModRM descriptor of the forms that have one. -/
def Instr.modRM? : Instr → Option ModRM
  | .movR32Imm32 _ _ => none
  | .addRm32R32 d => some d
  | .subRm32Imm8 d _ => some d
  | .movRm32R32 d => some d
  | .movR32Rm32 d => some d
  | .movRm32Imm32 d _ => some d
  | .incRm32 d => some d
  | .jmpRel32 _ => none
  | .jmpRel8 _ => none

theorem Instr.isSome_modRM? (i : Instr) : i.modRM?.isSome = i.kind.hasModRM := by
  cases i <;> rfl

end Sys2Proof

namespace Sys2Proof.Machine

variable {s : State} {d : ModRM} {i : Instr}

/-! ### The error of an execute phase -/

/-- The error that access to the `rm` operand raises, if any: resolving it, or a data byte outside memory. -/
def operandError (s : State) (d : ModRM) : Option ErrorKind :=
  match resolve s.regs d with
  | .error k => some k
  | .ok (.register _) => none
  | .ok (.memory a) => if s.mem.dwordInBounds a then none else some .outOfBounds

theorem operandError_sib (h3 : d.mod ≠ 3#2) (h4 : d.rm = 4#3) : operandError s d = some .notImplemented := by
  rw [operandError, resolve_sib h3 h4]

theorem operandError_register (h3 : d.mod = 3#2) : operandError s d = none := by
  rw [operandError, resolve_register h3]

theorem operandError_inside {a : Word} (hres : resolve s.regs d = .ok (.memory a)) (hin : s.DwordInside a) :
    operandError s d = none := by
  simp [operandError, hres, State.dwordInBounds_iff_dwordInside.mpr hin]

theorem operandError_outside {a : Word} (hres : resolve s.regs d = .ok (.memory a)) (hout : ¬s.DwordInside a) :
    operandError s d = some .outOfBounds := by
  simp [operandError, hres, State.dwordInBounds_eq_false_iff.mpr hout]

/-- The error an instruction meets in its execute phase, if any: only the `rm` operand can raise one. -/
def instrError (s : State) (i : Instr) : Option ErrorKind := i.modRM?.bind (operandError s)

theorem instrError_of_modRM (hd : i.modRM? = some d) : instrError s i = operandError s d := by
  rw [instrError, hd, Option.bind_some]

theorem instrError_of_not_hasModRM (h : i.kind.hasModRM = false) : instrError s i = none := by
  have hnone : i.modRM? = none := by rw [← Option.isNone_iff_eq_none, ← Option.not_isSome, i.isSome_modRM?, h]; rfl
  rw [instrError, hnone, Option.bind_none]

/-- The error of an execute phase, if any. -/
def errorOf : Except ErrorKind Effects → Option ErrorKind
  | .ok _ => none
  | .error k => some k

theorem errorOf_storeRM32 (v p : Word) : errorOf (storeRM32 s d v p) = operandError s d := by
  unfold storeRM32 operandError
  rcases resolve s.regs d with k | r | a
  · rfl
  · rfl
  · cases hb : s.mem.dwordInBounds a <;> simp [writeRM32, hb, errorOf]

theorem errorOf_loadRM32 (r : Reg32) (p : Word) : errorOf (loadRM32 s d r p) = operandError s d := by
  unfold loadRM32 operandError
  rcases resolve s.regs d with k | q | a
  · rfl
  · rfl
  · cases hb : s.mem.dwordInBounds a <;> simp [readRM32, memRead4, hb, errorOf]

theorem errorOf_modifyRM32 (op : Word → AluOp) (p : Word) : errorOf (modifyRM32 s d op p) = operandError s d := by
  unfold modifyRM32 operandError
  rcases resolve s.regs d with k | r | a
  · rfl
  · rfl
  · cases hb : s.mem.dwordInBounds a <;> simp [readRM32, memRead4, writeRM32, hb, errorOf]

/-! ### Every instruction as the conclusion of an execute phase -/

/-- An instruction concludes an execute phase, whose error is the one of its operand. -/
theorem exec_eq_conclude (i : Instr) (s : State) :
    ∃ x, exec i s = conclude i s x ∧ errorOf x = instrError s i := by
  cases i with
  | movR32Imm32 r imm => exact ⟨_, exec_movR32Imm32 r imm s, rfl⟩
  | addRm32R32 d => exact ⟨_, exec_addRm32R32 d s, errorOf_modifyRM32 _ _⟩
  | subRm32Imm8 d imm => exact ⟨_, exec_subRm32Imm8 d imm s, errorOf_modifyRM32 _ _⟩
  | movRm32R32 d => exact ⟨_, exec_movRm32R32 d s, errorOf_storeRM32 _ _⟩
  | movR32Rm32 d => exact ⟨_, exec_movR32Rm32 d s, errorOf_loadRM32 _ _⟩
  | movRm32Imm32 d imm => exact ⟨_, exec_movRm32Imm32 d imm s, errorOf_storeRM32 _ _⟩
  | incRm32 d => exact ⟨_, exec_incRm32 d s, errorOf_modifyRM32 _ _⟩
  | jmpRel32 rel => exact ⟨_, exec_jmpRel32 rel s, rfl⟩
  | jmpRel8 rel => exact ⟨_, exec_jmpRel8 rel s, rfl⟩

/-- Without an error of its operand an instruction commits. -/
theorem exec_of_no_error (h : instrError s i = none) : ∃ e, exec i s = .next (commit s e) := by
  obtain ⟨x, hexec, herr⟩ := exec_eq_conclude i s
  rw [h] at herr
  cases x with
  | ok e => exact ⟨e, hexec⟩
  | error k => cases herr

/-- An error of its operand is the error an instruction raises. -/
theorem exec_of_error {k : ErrorKind} (h : instrError s i = some k) :
    exec i s = .next (s.faultedWith k i.opcode) := by
  obtain ⟨x, hexec, herr⟩ := exec_eq_conclude i s
  rw [h] at herr
  cases x with
  | ok e => cases herr
  | error j => cases herr; rw [hexec, conclude_error_faultedWith]

/-! ### The obligation -/

/-- Settles O32: an instruction commits or raises the error of its operand, and both answer a next state. -/
theorem everyInstructionAnswersANextState : Obligations.EveryInstructionAnswersANextState := by
  intro i s
  cases h : instrError s i with
  | none =>
    obtain ⟨e, he⟩ := exec_of_no_error h
    exact ⟨_, he⟩
  | some k => exact ⟨_, exec_of_error h⟩

end Sys2Proof.Machine
end

section
/-! PROOFS. Why the decoder rejects bytes, by how many there are (30_encoding.md R48, R49,
60_exceptions.md R92 to R94). -/

namespace Sys2Proof

open Machine

variable {op b : Byte} {kind : OpKind} {bs cs rest : List Byte} {d : ModRM} {i : Instr} {r : Reject}

/-- The bytes of the ModRM group after an opcode of this kind, `b` being the byte after it. -/
def OpKind.groupSize (kind : OpKind) (b : Byte) : Nat := if kind.hasModRM then groupLength b else 0

theorem OpKind.groupSize_of_hasModRM (h : kind.hasModRM = true) : kind.groupSize b = groupLength b := if_pos h

theorem OpKind.groupSize_of_not_hasModRM (h : kind.hasModRM = false) : kind.groupSize b = 0 := by
  simp [OpKind.groupSize, h]

theorem OpKind.immSize_le (kind : OpKind) : kind.immSize ≤ 4 := by
  cases kind <;> simp [OpKind.immSize]

/-- No instruction's bytes by its opcode and ModRM byte are more than a fetch reads. -/
theorem OpKind.groupSize_add_immSize_le (kind : OpKind) (b : Byte) :
    1 + kind.groupSize b + kind.immSize ≤ maxInstrBytes := by
  have hgroup : kind.groupSize b ≤ 6 := by
    obtain ⟨d, hwf, rfl⟩ := exists_wf_of_byte b
    have hle := d.length_le
    rw [OpKind.groupSize, ← ModRM.length_eq_groupLength hwf]
    split <;> omega
  have himm := OpKind.immSize_le kind
  rw [maxInstrBytes]
  omega

theorem dispatch_opcode (i : Instr) : dispatch i.opcode = some i.kind := by
  rw [Instr.opcode_eq_kind_opcode, dispatch_kind_opcode]

/-! ### The group and what follows it -/

/-- A ModRM group that reads begins with its ModRM byte, which gives its length. -/
theorem takeModRM_ok_of_prefix (hpre : bs <+: b :: cs) (h : takeModRM bs = .ok (d, rest)) :
    d.wf = true ∧ d.byte = b ∧ bs = encodeModRM d ++ rest ∧ bs.length = groupLength b + rest.length := by
  obtain ⟨hwf, rfl⟩ := takeModRM_eq_ok.mp h
  obtain ⟨rfl, -⟩ := List.cons_prefix_cons.mp hpre
  refine ⟨hwf, rfl, rfl, ?_⟩
  rw [List.length_append, Laws.encodeModRM_length, ModRM.length_eq_groupLength hwf]

/-- A group that does not read is the decoder's rejection. -/
theorem decodeKind_of_takeModRM_error (hmodrm : kind.hasModRM = true) (h : takeModRM bs = .error r) :
    decodeKind op kind bs = .error r := by
  cases kind with
  | movR32Imm32 | jmpRel32 | jmpRel8 => cases hmodrm
  | addRm32R32 | group83 | movRm32R32 | movR32Rm32 | movRm32Imm32 | groupFF => simp only [decodeKind, h]

/-- Where there is no ModRM group only the immediate or offset can be cut off. -/
theorem decodeKind_error_of_not_hasModRM (hmodrm : kind.hasModRM = false) (h : decodeKind op kind bs = .error r) :
    r = .truncated ∧ bs.length < kind.immSize := by
  cases kind with simp only [decodeKind] at h
  | movR32Imm32 | jmpRel32 =>
    split at h
    · cases h
    next herr => cases h; exact ⟨takeDword_error herr, takeDword_error_length herr⟩
  | jmpRel8 => cases bs with
    | nil => cases h; exact ⟨rfl, Nat.one_pos⟩
    | cons b bs => cases h
  | addRm32R32 | group83 | movRm32R32 | movR32Rm32 | movRm32Imm32 | groupFF => cases hmodrm

/-- After a ModRM group with a listed sub-opcode only the immediate can be cut off. -/
theorem decodeKind_error_after_group (hwf : d.wf = true) (hmodrm : kind.hasModRM = true)
    (hsub : ¬SubOpcodeUnlisted kind d.byte) (h : decodeKind op kind (encodeModRM d ++ rest) = .error r) :
    r = .truncated ∧ rest.length < kind.immSize := by
  rw [SubOpcodeUnlisted, regOf_byte] at hsub
  cases kind with simp only [decodeKind, takeModRM_encodeModRM hwf] at h
  | movR32Imm32 | jmpRel32 | jmpRel8 => cases hmodrm
  | addRm32R32 | movRm32R32 | movR32Rm32 => cases h
  | movRm32Imm32 =>
    split at h
    · cases h
    next herr => cases h; exact ⟨takeDword_error herr, takeDword_error_length herr⟩
  | group83 =>
    rw [if_neg (by simpa using hsub)] at h
    cases rest with
    | nil => cases h; exact ⟨rfl, Nat.one_pos⟩
    | cons imm rest => cases h
  | groupFF =>
    rw [if_neg (by simpa using hsub)] at h
    cases h

/-! ### The part after the opcode -/

/-- A ModRM group that ends too early is rejected before anything else is looked at. -/
theorem decodeKind_short_group (hpre : bs <+: b :: cs) (hshort : bs.length < kind.groupSize b) :
    decodeKind op kind bs = .error .truncated := by
  cases hmodrm : kind.hasModRM with
  | false => rw [OpKind.groupSize_of_not_hasModRM hmodrm] at hshort; omega
  | true =>
    rw [OpKind.groupSize_of_hasModRM hmodrm] at hshort
    exact decodeKind_of_takeModRM_error hmodrm (takeModRM_truncated hpre hshort)

/-- After a whole ModRM group the sub-opcode is checked, before the immediate. -/
theorem decodeKind_unlisted (hpre : bs <+: b :: cs) (hgroup : kind.groupSize b ≤ bs.length)
    (hsub : SubOpcodeUnlisted kind b) : decodeKind op kind bs = .error (.unsupportedSubOpcode op (regOf b)) := by
  have hmodrm : kind.hasModRM = true := by rcases hsub with ⟨rfl, -⟩ | ⟨rfl, -⟩ <;> rfl
  rw [OpKind.groupSize_of_hasModRM hmodrm] at hgroup
  obtain ⟨d, rest, hread⟩ := takeModRM_of_length hpre hgroup
  obtain ⟨hwf, rfl, rfl, -⟩ := takeModRM_ok_of_prefix hpre hread
  rw [regOf_byte]
  exact (decodeKind_eq_unsupported rest hwf hmodrm).mpr hsub

/-- With a listed sub-opcode the only rejection is for ending too early. -/
theorem decodeKind_error_listed (hpre : bs <+: b :: cs) (hsub : ¬SubOpcodeUnlisted kind b)
    (h : decodeKind op kind bs = .error r) : r = .truncated ∧ bs.length < kind.groupSize b + kind.immSize := by
  cases hmodrm : kind.hasModRM with
  | false =>
    rw [OpKind.groupSize_of_not_hasModRM hmodrm, Nat.zero_add]
    exact decodeKind_error_of_not_hasModRM hmodrm h
  | true =>
    rw [OpKind.groupSize_of_hasModRM hmodrm]
    by_cases hshort : bs.length < groupLength b
    · rw [decodeKind_of_takeModRM_error hmodrm (takeModRM_truncated hpre hshort)] at h
      cases h
      exact ⟨rfl, by omega⟩
    · obtain ⟨d, rest, hread⟩ := takeModRM_of_length hpre (not_lt.mp hshort)
      obtain ⟨hwf, rfl, rfl, hlen⟩ := takeModRM_ok_of_prefix hpre hread
      obtain ⟨htrunc, himm⟩ := decodeKind_error_after_group hwf hmodrm hsub h
      exact ⟨htrunc, by omega⟩

/-- What the decoder accepts has all the bytes its kind and ModRM byte ask for. -/
theorem decodeKind_ok_length (hpre : bs <+: b :: cs) (h : decodeKind op kind bs = .ok (i, rest)) :
    kind.groupSize b + kind.immSize ≤ bs.length := by
  obtain ⟨rfl, hwf, rfl⟩ := decodeKind_sound h
  obtain ⟨c, cs', hcons⟩ : ∃ c cs', i.operandBytes ++ rest = c :: cs' := by
    cases i <;> exact ⟨_, _, rfl⟩
  obtain rfl : c = b := (List.cons_prefix_cons.mp (hcons ▸ hpre)).1
  have hlen := Instr.length_eq hwf hcons
  rw [← encode_length, encode_eq_cons, List.length_cons] at hlen
  rw [List.length_append, OpKind.groupSize]
  omega

/-- With a listed sub-opcode and an immediate that ends too early the bytes are rejected as truncated. -/
theorem decodeKind_short_imm (hpre : bs <+: b :: cs) (hsub : ¬SubOpcodeUnlisted kind b)
    (hshort : bs.length < kind.groupSize b + kind.immSize) : decodeKind op kind bs = .error .truncated := by
  cases h : decodeKind op kind bs with
  | ok p => exact absurd (decodeKind_ok_length hpre h) (not_le.mpr hshort)
  | error r => rw [(decodeKind_error_listed hpre hsub h).1]

/-- With a listed sub-opcode and all the bytes an instruction is decoded. -/
theorem decodeKind_whole (hpre : bs <+: b :: cs) (hsub : ¬SubOpcodeUnlisted kind b)
    (hlen : kind.groupSize b + kind.immSize ≤ bs.length) : ∃ i rest, decodeKind op kind bs = .ok (i, rest) := by
  cases h : decodeKind op kind bs with
  | ok p => exact ⟨p.1, p.2, rfl⟩
  | error r => exact absurd (decodeKind_error_listed hpre hsub h).2 (not_lt.mpr hlen)

/-- The decoder calls an opcode unknown exactly when it is unmapped (30_encoding.md R48). -/
theorem rejectKind_unknownOpcode_iff (h : decode (op :: bs) = .error r) :
    rejectKind r = .unknownOpcode ↔ dispatch op = none := by
  rw [decode] at h
  cases hkind : dispatch op with
  | none => rw [hkind] at h; cases h; simp [rejectKind]
  | some kind =>
    simp only [hkind] at h
    obtain ⟨b, cs, hpre⟩ : ∃ b cs, bs <+: b :: cs := by
      cases bs with
      | nil => exact ⟨0, [], List.nil_prefix⟩
      | cons b bs => exact ⟨b, bs, List.prefix_refl _⟩
    have hr : r = .truncated ∨ r = .unsupportedSubOpcode op (regOf b) := by
      by_cases hshort : bs.length < kind.groupSize b
      · rw [decodeKind_short_group hpre hshort] at h
        cases h
        exact .inl rfl
      · by_cases hsub : SubOpcodeUnlisted kind b
        · rw [decodeKind_unlisted hpre (not_lt.mp hshort) hsub] at h
          cases h
          exact .inr rfl
        · exact .inl (decodeKind_error_listed hpre hsub h).1
    rcases hr with rfl | rfl <;> simp [rejectKind]

end Sys2Proof
end

section
/-! PROOFS. Every step keeps the invariant: the memory by its bounds-checked writes (20_memory.md R33), the status by
the way it was reached (40_execution_cycle.md R66, R71, 60_exceptions.md R92, R96). -/

namespace Sys2Proof.Machine

variable {s t : State} {i : Instr}

/-! ### The memory -/

/-- An instruction writes memory inside its bounds only. -/
theorem exec_wf (hwf : s.mem.wf) (h : exec i s = .next t) : t.mem.wf := by
  rcases exec_cases h with ⟨e, rfl, ⟨-, ⟨r, v, -, hmem⟩ | ⟨a, v, -, hmem, hin⟩⟩ | rfl⟩ | ⟨k, -, rfl⟩
  · rw [commit_mem, hmem, commitMem_none]; exact hwf
  · rw [commit_mem, hmem, commitMem_some]; exact Memory.writeDword_wf hwf hin v
  · exact hwf
  · exact hwf

/-! ### The status -/

theorem statusCoherent_of_running (h : s.status = .running) : s.StatusCoherent := by
  simp [State.StatusCoherent, h]

theorem statusCoherent_haltRange (h : s.mem.inBounds s.eip = false) : (haltRange s).StatusCoherent :=
  Memory.inBounds_eq_false_iff.mp h

/-- A raised error reports the byte at its `eip`, inside memory, and calls it unknown exactly when it is unmapped. -/
theorem statusCoherent_raiseError {k : ErrorKind} {op : Byte} (hin : s.mem.inBounds s.eip = true)
    (hop : op = s.mem.readByte s.eip) (hkind : k = .unknownOpcode ↔ dispatch op = none) :
    (raiseError k op s).StatusCoherent :=
  ⟨rfl, (s.mem.inBounds_iff s.eip).mp hin, hop, hkind⟩

theorem statusCoherent_sentinelTest (h : s.StatusCoherent) : (sentinelTest s).StatusCoherent := by
  rcases sentinelTest_cases s with ⟨-, hzero, heq⟩ | ⟨-, heq⟩
  · rw [heq]; exact hzero
  · rw [heq]; exact h

/-- An instruction of a running CORE, decoded at its `eip`, leaves it running or with an error of that instruction. -/
theorem exec_statusCoherent {rest : List Byte} (hrun : s.status = .running)
    (hdec : decode (fetchBytes s) = .ok (i, rest)) (h : exec i s = .next t) : t.StatusCoherent := by
  rcases exec_cases h with ⟨e, rfl, -⟩ | ⟨k, hk, rfl⟩
  · exact statusCoherent_of_running hrun
  · obtain ⟨-, hbytes⟩ := decode_eq_ok.mp hdec
    obtain ⟨hin, hop⟩ := fetchBytes_cons hbytes
    refine statusCoherent_raiseError hin hop ?_
    rcases hk with rfl | rfl <;> simp [dispatch_opcode]

/-- A rejection of the bytes at `eip` raises an error that agrees with them. -/
theorem statusCoherent_of_decode_error {r : Reject} (hin : s.mem.inBounds s.eip = true)
    (hdec : decode (fetchBytes s) = .error r) :
    (raiseError (rejectKind r) (s.mem.readByte s.eip) s).StatusCoherent := by
  rw [fetchBytes, maxInstrBytes, fetchWindow_succ _ hin] at hdec
  exact statusCoherent_raiseError hin rfl (rejectKind_unknownOpcode_iff hdec)

/-! ### The obligation -/

/-- Settles O3, by the ways a step can go: the range halt, a rejection, or an instruction and the sentinel test. -/
theorem everyStepKeepsTheInvariant : Obligations.EveryStepKeepsTheInvariant := by
  rintro s t ⟨hwf, -⟩ h
  obtain ⟨hrun, ⟨hout, rfl⟩ | ⟨hin, r, hdec, rfl⟩ | ⟨-, i, rest, u, hdec, hu, rfl⟩⟩ := step_cases h
  · exact ⟨hwf, statusCoherent_haltRange hout⟩
  · exact ⟨hwf, statusCoherent_of_decode_error hin hdec⟩
  · refine ⟨?_, statusCoherent_sentinelTest (exec_statusCoherent hrun hdec hu)⟩
    rw [sentinelTest_mem]
    exact exec_wf hwf hu

end Sys2Proof.Machine
end

section
/-! PROOFS. The first error in the order of 60_exceptions.md R97, read off memory by address: how far memory goes from
`eip` upward is how many bytes are fetched, and the bytes fetched are those addresses' bytes. -/

namespace Sys2Proof.Machine

variable {s : State} {kind : OpKind} {d : ModRM} {i : Instr} {rest : List Byte}

/-! ### The bytes fetched, by address -/

theorem add_one_add_ofNat (a : Word) (k : Nat) : a + 1#32 + BitVec.ofNat 32 k = a + BitVec.ofNat 32 (k + 1) := by
  rw [BitVec.add_assoc, Nat.add_comm k 1, BitVec.ofNat_add]

/-- A fetch window has `k` bytes exactly when the first `k` addresses are inside memory. -/
theorem le_fetchWindow_length_iff {m : Memory} {n k : Nat} {a : Word} (hk : k ≤ n) :
    k ≤ (fetchWindow m n a).length ↔ ∀ j : Nat, j < k → (a + BitVec.ofNat 32 j).toNat < m.capacity := by
  induction n generalizing a k with
  | zero => simp [Nat.le_zero.mp hk]
  | succ n ih =>
    cases k with
    | zero => simp
    | succ k =>
      cases hb : m.inBounds a with
      | false =>
        rw [fetchWindow_nil _ hb]
        refine iff_of_false (by simp) fun h => ?_
        have hfirst : a.toNat < m.capacity := by simpa using h 0 (Nat.succ_pos k)
        exact absurd hfirst (not_lt.mpr (Memory.inBounds_eq_false_iff.mp hb))
      | true =>
        rw [fetchWindow_succ n hb, List.length_cons, Nat.succ_le_succ_iff, ih (Nat.le_of_succ_le_succ hk)]
        simp only [add_one_add_ofNat]
        refine ⟨fun h j hj => ?_, fun h j hj => h (j + 1) (Nat.succ_lt_succ hj)⟩
        cases j with
        | zero => simpa using (m.inBounds_iff a).mp hb
        | succ j => exact h j (Nat.lt_of_succ_lt_succ hj)

theorem fetchWindow_length_le (m : Memory) (n : Nat) (a : Word) : (fetchWindow m n a).length ≤ n := by
  induction n generalizing a with
  | zero => rfl
  | succ n ih =>
    cases hb : m.inBounds a with
    | false => simp [fetchWindow_nil _ hb]
    | true => simpa [fetchWindow_succ n hb] using ih (a + 1#32)

/-- The first `n` bytes at `eip` are inside memory exactly when that many are fetched. -/
theorem instrInside_iff {n : Nat} (hn : n ≤ maxInstrBytes) : s.InstrInside n ↔ n ≤ (fetchBytes s).length :=
  (le_fetchWindow_length_iff hn).symm

/-- A fetched byte is the byte at its address. -/
theorem instrByte_of_getElem? {k : Nat} {c : Byte} (h : (fetchBytes s)[k]? = some c) : s.instrByte k = c := by
  obtain ⟨hk, -⟩ := List.getElem?_eq_some_iff.mp h
  have hmax : (fetchBytes s).length ≤ maxInstrBytes := fetchWindow_length_le s.mem maxInstrBytes s.eip
  have hin : s.InstrInside (k + 1) := (instrInside_iff (hk.trans_le hmax)).mpr hk
  rw [fetchBytes, fetchWindow_getElem? (hk.trans_le hmax) fun j hj => hin j (Nat.lt_succ_of_le hj)] at h
  exact Option.some.inj h

theorem instrByte_zero (s : State) : s.instrByte 0 = s.mem.readByte s.eip := by
  simp [State.instrByte]

/-- The bytes fetched after the opcode byte. -/
def fetchTail (s : State) : List Byte := (fetchBytes s).tail

theorem fetchBytes_eq_cons (hin : s.eip.toNat < s.mem.capacity) :
    fetchBytes s = s.instrByte 0 :: fetchTail s := by
  rw [fetchTail, fetchBytes, maxInstrBytes, fetchWindow_succ _ ((s.mem.inBounds_iff s.eip).mpr hin), List.tail_cons,
    instrByte_zero]

/-- The bytes after the opcode, as far as they are fetched, begin with the byte at `eip` + 1. -/
theorem fetchTail_prefix (hin : s.eip.toNat < s.mem.capacity) :
    fetchTail s <+: s.instrByte 1 :: (fetchTail s).tail := by
  cases h : fetchTail s with
  | nil => exact List.nil_prefix
  | cons b bs =>
    have hb : s.instrByte 1 = b := instrByte_of_getElem? (by rw [fetchBytes_eq_cons hin, h]; rfl)
    rw [hb, List.tail_cons]

/-- The bytes of the ModRM group are inside memory exactly when they are fetched. -/
theorem instrInside_group_iff (hin : s.eip.toNat < s.mem.capacity) (kind : OpKind) (b : Byte) :
    s.InstrInside (1 + kind.groupSize b) ↔ kind.groupSize b ≤ (fetchTail s).length := by
  have hmax := kind.groupSize_add_immSize_le b
  rw [instrInside_iff (by omega), fetchBytes_eq_cons hin, List.length_cons]
  omega

/-- The bytes of the whole instruction are inside memory exactly when they are fetched. -/
theorem instrInside_whole_iff (hin : s.eip.toNat < s.mem.capacity) (kind : OpKind) (b : Byte) :
    s.InstrInside (1 + kind.groupSize b + kind.immSize) ↔
      kind.groupSize b + kind.immSize ≤ (fetchTail s).length := by
  rw [instrInside_iff (kind.groupSize_add_immSize_le b), fetchBytes_eq_cons hin, List.length_cons]
  omega

/-! ### The operand, by address -/

/-- The bytes at `eip` of a decoded instruction with a ModRM descriptor: its group comes after the opcode. -/
theorem fetchBytes_of_modRM (hdec : decode (fetchBytes s) = .ok (i, rest)) (hd : i.modRM? = some d) :
    d.wf = true ∧ ∃ tail, fetchBytes s = i.opcode :: (encodeModRM d ++ tail) := by
  obtain ⟨hwf, hbytes⟩ := decode_eq_ok.mp hdec
  cases i with
  | movR32Imm32 | jmpRel32 | jmpRel8 => cases hd
  | addRm32R32 | movRm32R32 | movR32Rm32 => cases hd; exact ⟨hwf, rest, hbytes⟩
  | movRm32Imm32 e imm =>
    cases hd
    exact ⟨hwf, dwordBytes imm ++ rest, by simpa [encode] using hbytes⟩
  | subRm32Imm8 e imm =>
    cases hd
    exact ⟨(Bool.and_eq_true_iff.mp hwf).1, imm :: rest, by simpa [encode] using hbytes⟩
  | incRm32 e =>
    cases hd
    exact ⟨(Bool.and_eq_true_iff.mp hwf).1, rest, hbytes⟩

/-- The descriptor of a decoded instruction has the byte at `eip` + 1 as its ModRM byte. -/
theorem instrByte_one_of_modRM (hdec : decode (fetchBytes s) = .ok (i, rest)) (hd : i.modRM? = some d) :
    s.instrByte 1 = d.byte := by
  obtain ⟨-, tail, hbytes⟩ := fetchBytes_of_modRM hdec hd
  exact instrByte_of_getElem? (by rw [hbytes]; rfl)

/-- A displacement that no SIB byte comes before begins at `eip` + 2. -/
theorem instrByte_of_disp (hdec : decode (fetchBytes s) = .ok (i, rest)) (hd : i.modRM? = some d)
    (hsib : d.sib = none) {k : Nat} {c : Byte} (hc : d.disp.bytes[k]? = some c) : s.instrByte (2 + k) = c := by
  obtain ⟨-, tail, hbytes⟩ := fetchBytes_of_modRM hdec hd
  have hk : k < d.disp.bytes.length := (List.getElem?_eq_some_iff.mp hc).1
  refine instrByte_of_getElem? ?_
  rw [hbytes, encodeModRM, hsib, Nat.add_comm, List.cons_append, List.getElem?_cons_succ, List.getElem?_cons_succ,
    Option.toList_none, List.nil_append, List.getElem?_append_left hk, hc]

theorem readDword_eq_instrBytes (s : State) :
    s.mem.readDword (s.eip + 2#32) =
      dwordOfBytes (s.instrByte 2) (s.instrByte 3) (s.instrByte 4) (s.instrByte 5) := by
  simp [Memory.readDword, State.instrByte, BitVec.add_assoc]

/-- The table's address column by (mod, rm), as the cases of `resolve`. -/
theorem dataAddress_eq (s : State) : s.dataAddress =
    if modOf (s.instrByte 1) = 0#2 ∧ rmOf (s.instrByte 1) = 5#3 then s.mem.readDword (s.eip + 2#32)
    else if modOf (s.instrByte 1) = 0#2 then s.regs.get32 (Reg32.ofId (rmOf (s.instrByte 1)))
    else if modOf (s.instrByte 1) = 1#2 then
      s.regs.get32 (Reg32.ofId (rmOf (s.instrByte 1))) + sext32 (s.instrByte 2)
    else s.regs.get32 (Reg32.ofId (rmOf (s.instrByte 1))) + s.mem.readDword (s.eip + 2#32) := by
  rw [State.dataAddress]
  generalize modOf (s.instrByte 1) = mod, rmOf (s.instrByte 1) = rm
  simp only [← BitVec.toNat_inj, BitVec.reduceToNat]
  split <;> simp_all

theorem readDword_of_disp32 (hdec : decode (fetchBytes s) = .ok (i, rest)) (hd : i.modRM? = some d)
    (hsib : d.sib = none) (hclass : Disp32Class d.mod d.rm) :
    s.mem.readDword (s.eip + 2#32) = d.disp.toWord := by
  obtain ⟨hwf, -⟩ := fetchBytes_of_modRM hdec hd
  obtain ⟨v, hv⟩ := ModRM.exists_disp32 hwf hclass
  have hbyte (k : Nat) (c : Byte) (hc : (dwordBytes v)[k]? = some c) : s.instrByte (2 + k) = c :=
    instrByte_of_disp hdec hd hsib (by rw [hv]; exact hc)
  rw [readDword_eq_instrBytes, hbyte 0 _ rfl, hbyte 1 _ rfl, hbyte 2 _ rfl, hbyte 3 _ rfl, dwordOfBytes_byteOfDword, hv,
    Disp.toWord]

theorem sext32_of_disp8 (hdec : decode (fetchBytes s) = .ok (i, rest)) (hd : i.modRM? = some d)
    (hsib : d.sib = none) (hmod : d.mod = 1#2) : sext32 (s.instrByte 2) = d.disp.toWord := by
  obtain ⟨hwf, -⟩ := fetchBytes_of_modRM hdec hd
  obtain ⟨v, hv⟩ := ModRM.exists_disp8 hwf hmod
  rw [instrByte_of_disp hdec hd hsib (k := 0) (c := v) (by rw [hv]; rfl), hv, Disp.toWord]

/-- The operand of a decoded memory form is at the data address read off memory. -/
theorem resolve_dataAddress (hdec : decode (fetchBytes s) = .ok (i, rest)) (hd : i.modRM? = some d)
    (h3 : d.mod ≠ 3#2) (h4 : d.rm ≠ 4#3) : resolve s.regs d = .ok (.memory s.dataAddress) := by
  obtain ⟨hwf, -⟩ := fetchBytes_of_modRM hdec hd
  have hsib : d.sib = none := ModRM.sib_eq_none hwf fun h => h4 h.2
  rw [dataAddress_eq, instrByte_one_of_modRM hdec hd, modOf_byte, rmOf_byte]
  by_cases h0 : d.mod = 0#2
  · by_cases h5 : d.rm = 5#3
    · rw [resolve_absolute h0 h5, if_pos ⟨h0, h5⟩, readDword_of_disp32 hdec hd hsib (.inl ⟨h0, h5⟩)]
    · rw [resolve_base h0 h4 h5, if_neg fun h => h5 h.2, if_pos h0]
  · rw [resolve_base_disp h3 h0 h4, if_neg fun h => h0 h.1, if_neg h0]
    by_cases h1 : d.mod = 1#2
    · rw [if_pos h1, sext32_of_disp8 hdec hd hsib h1]
    · have h2 : d.mod = 2#2 := by bv_omega
      rw [if_neg h1, readDword_of_disp32 hdec hd hsib (.inr h2)]

/-! ### The step, by the bytes after the opcode -/

theorem raiseError_eq_faultedWith (k : ErrorKind) (op : Byte) (s : State) :
    raiseError k op s = s.faultedWith k op := rfl

section Mapped

variable (hrun : s.status = .running) (hin : s.eip.toNat < s.mem.capacity)

include hrun hin

/-- A rejection of the bytes at `eip` raises its error with the byte there. -/
theorem step_of_reject {r : Reject} (hdec : decode (fetchBytes s) = .error r) :
    step s = .next (s.faultedWith (rejectKind r) (s.instrByte 0)) := by
  rw [step_of_decode_error hrun ((s.mem.inBounds_iff s.eip).mpr hin) hdec, instrByte_zero, raiseError_eq_faultedWith]

theorem step_of_unmapped (hop : dispatch (s.instrByte 0) = none) :
    step s = .next (s.faultedWith .unknownOpcode (s.instrByte 0)) := by
  refine step_of_reject hrun hin (r := .unknownOpcode (s.instrByte 0)) ?_
  rw [fetchBytes_eq_cons hin, decode, hop]

variable (hkind : dispatch (s.instrByte 0) = some kind)

include hkind

theorem step_of_decodeKind_error {r : Reject} (h : decodeKind (s.instrByte 0) kind (fetchTail s) = .error r) :
    step s = .next (s.faultedWith (rejectKind r) (s.instrByte 0)) := by
  refine step_of_reject hrun hin ?_
  rw [fetchBytes_eq_cons hin, decode, hkind]
  exact h

theorem step_of_group_outside (hout : ¬s.InstrInside (1 + kind.groupSize (s.instrByte 1))) :
    step s = .next (s.faultedWith .outOfBounds (s.instrByte 0)) := by
  rw [instrInside_group_iff hin, not_le] at hout
  exact step_of_decodeKind_error hrun hin hkind (decodeKind_short_group (fetchTail_prefix hin) hout)

theorem step_of_unlisted (hgroup : s.InstrInside (1 + kind.groupSize (s.instrByte 1)))
    (hsub : SubOpcodeUnlisted kind (s.instrByte 1)) :
    step s = .next (s.faultedWith .notImplemented (s.instrByte 0)) := by
  rw [instrInside_group_iff hin] at hgroup
  exact step_of_decodeKind_error hrun hin hkind (decodeKind_unlisted (fetchTail_prefix hin) hgroup hsub)

theorem step_of_imm_outside (hsub : ¬SubOpcodeUnlisted kind (s.instrByte 1))
    (hout : ¬s.InstrInside (1 + kind.groupSize (s.instrByte 1) + kind.immSize)) :
    step s = .next (s.faultedWith .outOfBounds (s.instrByte 0)) := by
  rw [instrInside_whole_iff hin, not_le] at hout
  exact step_of_decodeKind_error hrun hin hkind (decodeKind_short_imm (fetchTail_prefix hin) hsub hout)

end Mapped

/-- A whole instruction with a listed sub-opcode is decoded, as one of its opcode's kind. -/
theorem exists_decode_of_whole (hin : s.eip.toNat < s.mem.capacity) (hkind : dispatch (s.instrByte 0) = some kind)
    (hsub : ¬SubOpcodeUnlisted kind (s.instrByte 1))
    (hwhole : s.InstrInside (1 + kind.groupSize (s.instrByte 1) + kind.immSize)) :
    ∃ i rest, decode (fetchBytes s) = .ok (i, rest) ∧ i.kind = kind ∧ i.opcode = s.instrByte 0 := by
  rw [instrInside_whole_iff hin] at hwhole
  obtain ⟨i, rest, h⟩ := decodeKind_whole (op := s.instrByte 0) (fetchTail_prefix hin) hsub hwhole
  obtain ⟨rfl, -, -⟩ := decodeKind_sound h
  refine ⟨i, rest, ?_, rfl, ?_⟩
  · rw [fetchBytes_eq_cons hin, decode, hkind]
    exact h
  · rw [Instr.opcode_eq_kind_opcode, ← opcode_of_dispatch hkind]

/-- A decoded instruction whose operand raises an error raises it in the step. -/
theorem step_of_instrError {k : ErrorKind} (hrun : s.status = .running)
    (hdec : decode (fetchBytes s) = .ok (i, rest)) (h : instrError s i = some k) :
    step s = .next (s.faultedWith k i.opcode) := by
  rw [step_of_decode_ok hrun hdec, exec_of_error h, afterInstr_next, ← raiseError_eq_faultedWith,
    sentinelTest_raiseError]

/-- A decoded instruction whose operand raises no error leaves the CORE running or at the sentinel halt. -/
theorem step_of_no_error (hrun : s.status = .running) (hdec : decode (fetchBytes s) = .ok (i, rest))
    (h : instrError s i = none) :
    ∃ t, step s = .next t ∧ (t.status = .running ∨ t.status = .haltedSentinel) := by
  obtain ⟨e, he⟩ := exec_of_no_error h
  refine ⟨_, by rw [step_of_decode_ok hrun hdec, he, afterInstr_next], ?_⟩
  rcases sentinelTest_cases (commit s e) with ⟨-, -, heq⟩ | ⟨-, heq⟩
  · exact .inr (by rw [heq, State.setStatus_status])
  · exact .inl (by rw [heq, commit_status, hrun])

/-- A decoded instruction of a kind with a ModRM byte has a descriptor, read at `eip` + 1. -/
theorem exists_modRM (hdec : decode (fetchBytes s) = .ok (i, rest)) (hmodrm : i.kind.hasModRM = true) :
    ∃ d, i.modRM? = some d ∧ modOf (s.instrByte 1) = d.mod ∧ rmOf (s.instrByte 1) = d.rm := by
  obtain ⟨d, hd⟩ := Option.isSome_iff_exists.mp (i.isSome_modRM?.trans hmodrm)
  rw [instrByte_one_of_modRM hdec hd]
  exact ⟨d, hd, modOf_byte d, rmOf_byte d⟩

/-- A decoded SIB form raises NotImplemented. -/
theorem instrError_of_sibForm (hdec : decode (fetchBytes s) = .ok (i, rest)) (hmodrm : i.kind.hasModRM = true)
    (hform : SibForm (s.instrByte 1)) : instrError s i = some .notImplemented := by
  obtain ⟨d, hd, hmod, hrm⟩ := exists_modRM hdec hmodrm
  obtain ⟨h3, h4⟩ := hform
  rw [instrError_of_modRM hd]
  exact operandError_sib (hmod ▸ h3) (hrm ▸ h4)

/-- A decoded memory form with a data byte outside memory raises OutOfBounds. -/
theorem instrError_of_outside (hdec : decode (fetchBytes s) = .ok (i, rest)) (hmodrm : i.kind.hasModRM = true)
    (hform : MemoryForm (s.instrByte 1)) (hout : ¬s.DwordInside s.dataAddress) :
    instrError s i = some .outOfBounds := by
  obtain ⟨d, hd, hmod, hrm⟩ := exists_modRM hdec hmodrm
  obtain ⟨h3, h4⟩ := hform
  rw [instrError_of_modRM hd]
  exact operandError_outside (resolve_dataAddress hdec hd (hmod ▸ h3) (hrm ▸ h4)) hout

/-- A decoded instruction with no operand, a register operand or one inside memory raises no error. -/
theorem instrError_eq_none (hdec : decode (fetchBytes s) = .ok (i, rest))
    (hok : i.kind.hasModRM = true →
      ¬SibForm (s.instrByte 1) ∧ (MemoryForm (s.instrByte 1) → s.DwordInside s.dataAddress)) :
    instrError s i = none := by
  cases hmodrm : i.kind.hasModRM with
  | false => exact instrError_of_not_hasModRM hmodrm
  | true =>
    obtain ⟨hsib, hmem⟩ := hok hmodrm
    obtain ⟨d, hd, hmod, hrm⟩ := exists_modRM hdec hmodrm
    rw [SibForm, hmod, hrm] at hsib
    rw [MemoryForm, hmod, hrm] at hmem
    rw [instrError_of_modRM hd]
    by_cases h3 : d.mod = 3#2
    · exact operandError_register h3
    · have h4 : d.rm ≠ 4#3 := fun h4 => hsib ⟨h3, h4⟩
      exact operandError_inside (resolve_dataAddress hdec hd h3 h4) (hmem ⟨h3, h4⟩)

/-! ### The obligation -/

/-- Settles O42, condition by condition: up to the immediate by the decoder's rejections, after it by the error of the
decoded instruction's operand. -/
theorem theFirstErrorInOrderIsRaised : Obligations.TheFirstErrorInOrderIsRaised := by
  intro s hrun hin
  refine ⟨step_of_unmapped hrun hin, fun kind hkind => ?_⟩
  have hdecoded := exists_decode_of_whole hin hkind
  refine ⟨step_of_group_outside hrun hin hkind, step_of_unlisted hrun hin hkind,
    fun _ => step_of_imm_outside hrun hin hkind, ?sib, ?data, ?none⟩
  case sib =>
    intro hwhole hsub hmodrm hform
    obtain ⟨i, rest, hdec, rfl, hop⟩ := hdecoded hsub hwhole
    rw [← hop]
    exact step_of_instrError hrun hdec (instrError_of_sibForm hdec hmodrm hform)
  case data =>
    intro hwhole hsub hmodrm hform hout
    obtain ⟨i, rest, hdec, rfl, hop⟩ := hdecoded hsub hwhole
    rw [← hop]
    exact step_of_instrError hrun hdec (instrError_of_outside hdec hmodrm hform hout)
  case none =>
    intro hwhole hsub hok
    obtain ⟨i, rest, hdec, rfl, -⟩ := hdecoded hsub hwhole
    exact step_of_no_error hrun hdec (instrError_eq_none hdec hok)

end Sys2Proof.Machine
end

section
/-! PROOFS. The values construction gives (10_state.md R27, 70_reset_and_hazards.md R109). -/

namespace Sys2Proof.Machine

/-- Reading a register of a constructed register file: ESP is the one register with a value of its own. -/
theorem RegFile.get32_constructed (initEsp : Word) (r : Reg32) :
    (RegFile.constructed initEsp).get32 r = if r = .esp then initEsp else 0#32 := by
  cases r <;> rfl

/-- Settles O1: the registers by `RegFile.get32_constructed`, the memory by the lemmas of the zeroed buffer. -/
theorem constructionGivesResetValues : Obligations.ConstructionGivesResetValues := by
  intro memSize initEip initEsp eflags s
  have hesp : s.regs.get32 .esp = initEsp := RegFile.get32_constructed initEsp .esp
  have hzero : ∀ r, r ≠ .esp → s.regs.get32 r = 0#32 := fun r hr =>
    (RegFile.get32_constructed initEsp r).trans (if_neg hr)
  exact ⟨hzero .eax (by decide), hzero .ecx (by decide), hzero .edx (by decide), hzero .ebx (by decide), hesp,
    hzero .ebp (by decide), hzero .esi (by decide), hzero .edi (by decide),
    State.construct_eip memSize initEip initEsp eflags, Memory.zeroed_capacity memSize,
    Memory.zeroed_readByte memSize, State.construct_status memSize initEip initEsp eflags⟩

end Sys2Proof.Machine
end

section
/-! PROOFS. What ends a run and what follows an instruction: a state has a step exactly when it is RUNNING
(40_execution_cycle.md R75), the two halts (R66, R71), and an error, which changes nothing but `status`
(60_exceptions.md R96). -/

namespace Sys2Proof.Machine

variable {s t : State} {i : Instr}

/-! ### A step exists -/

theorem running_of_step (h : step s = .next t) : s.status = .running := by
  obtain ⟨hrun, -⟩ := step_cases h
  exact hrun

theorem exists_step_of_running (hrun : s.status = .running) : ∃ t, step s = .next t := by
  rcases fetch_cases s with ⟨hout, -⟩ | ⟨hin, r, hdec, -⟩ | ⟨-, i, rest, hdec, -⟩
  · exact ⟨_, step_of_capacity_le hrun (Memory.inBounds_eq_false_iff.mp hout)⟩
  · exact ⟨_, step_of_decode_error hrun hin hdec⟩
  · obtain ⟨u, hu⟩ := everyInstructionAnswersANextState i s
    exact ⟨sentinelTest u, by rw [step_of_decode_ok hrun hdec, hu, afterInstr_next]⟩

/-! ### A step that ends FAULTED -/

/-- The sentinel test raises no error. -/
theorem sentinelTest_eq_of_raised {kind : ErrorKind} (h : (sentinelTest s).Raised kind) : sentinelTest s = s := by
  rcases sentinelTest_cases s with ⟨-, -, heq⟩ | ⟨-, heq⟩
  · obtain ⟨faultEip, opcode, hstatus⟩ := h
    rw [heq, State.setStatus_status] at hstatus
    cases hstatus
  · exact heq

/-- An instruction of a running CORE that ends FAULTED raised the error with its own opcode byte. -/
theorem exec_eq_raiseError {kind : ErrorKind} (hrun : s.status = .running) (h : exec i s = .next t)
    (hraised : t.Raised kind) : t = raiseError kind i.opcode s := by
  obtain ⟨faultEip, opcode, hstatus⟩ := hraised
  rcases exec_cases h with ⟨e, rfl, -⟩ | ⟨k, -, rfl⟩
  · rw [commit_status, hrun] at hstatus
    cases hstatus
  · cases hstatus
    rfl

/-- A step that ends FAULTED raised the error at its `eip`, with the byte there: before the execute phase, or in it. -/
theorem step_eq_faultedWith {kind : ErrorKind} (h : step s = .next t) (hraised : t.Raised kind) :
    t = s.faultedWith kind (s.mem.readByte s.eip) := by
  obtain ⟨hrun, ⟨-, rfl⟩ | ⟨-, r, -, rfl⟩ | ⟨-, i, rest, u, hdec, hu, rfl⟩⟩ := step_cases h
  · obtain ⟨faultEip, opcode, hstatus⟩ := hraised
    cases hstatus
  · obtain ⟨faultEip, opcode, hstatus⟩ := hraised
    cases hstatus
    rfl
  · obtain ⟨-, hbytes⟩ := decode_eq_ok.mp hdec
    obtain ⟨-, hop⟩ := fetchBytes_cons hbytes
    have heq := sentinelTest_eq_of_raised hraised
    rw [heq] at hraised ⊢
    rw [exec_eq_raiseError hrun hu hraised, hop, raiseError_eq_faultedWith]

/-! ### The obligations -/

/-- Settles O41: the state is `step_eq_faultedWith`'s, whose status is not RUNNING. -/
theorem errorChangesOnlyTheStatus : Obligations.ErrorChangesOnlyTheStatus := by
  intro s t kind faultEip opcode h hstatus
  obtain rfl := step_eq_faultedWith h ⟨faultEip, opcode, hstatus⟩
  cases hstatus
  exact ⟨rfl, rfl, rfl, fun u hu => Status.noConfusion (running_of_step hu)⟩

/-- Settles O40: every running state has a step, and only a running one. -/
theorem onlyARunningStateHasAStep : Obligations.OnlyARunningStateHasAStep :=
  fun _ => ⟨exists_step_of_running, fun ⟨_, h⟩ => running_of_step h⟩

/-- Settles O38: the range halt. -/
theorem rangeHaltBeforeTheFetch : Obligations.RangeHaltBeforeTheFetch :=
  fun _ => step_of_capacity_le

/-- Settles O39: the step is the instruction and the sentinel test, by the test's three cases; at the range halt no
instruction runs. -/
theorem sentinelHaltAfterACompletedInstruction : Obligations.SentinelHaltAfterACompletedInstruction := by
  intro s t i rest hrun
  refine ⟨fun hdec hexec => ?_, fun hout hstep => ?_⟩
  · have hstep : step s = .next (sentinelTest t) := by rw [step_of_decode_ok hrun hdec, hexec, afterInstr_next]
    rw [hstep]
    refine ⟨fun htrun hzero => ?_, fun _ hne => ?_, fun hend => ?_⟩
    · rw [sentinelTest_of_eip_eq_zero htrun hzero]
    · rw [sentinelTest_of_eip_ne_zero hne]
    · rw [sentinelTest, if_neg fun h => hend h.1]
  · rw [step_of_capacity_le hrun hout] at hstep
    cases hstep
    rfl

end Sys2Proof.Machine
end

section
/-! PROOFS. EFLAGS is inert (10_state.md R24): every part of a step keeps it, and answers the same whatever it is. -/

namespace Sys2Proof.Machine

variable {s t : State} {i : Instr} (f : BitVec 32)

/-! ### The parts of a step, from a state with other EFLAGS -/

theorem conclude_setEflags {x : Except ErrorKind Effects} (h : conclude i s x = .next t) :
    conclude i (s.setEflags f) x = .next (t.setEflags f) := by
  rcases conclude_cases h with ⟨e, rfl, rfl⟩ | ⟨k, rfl, rfl⟩ <;> rfl

theorem sentinelTest_setEflags (s : State) : sentinelTest (s.setEflags f) = (sentinelTest s).setEflags f := by
  rcases sentinelTest_cases s with ⟨hrun, hzero, heq⟩ | ⟨hnot, heq⟩
  · rw [heq]; exact if_pos ⟨hrun, hzero⟩
  · rw [heq]; exact if_neg hnot

/-- No execute phase looks at EFLAGS: an instruction concludes the same one whatever EFLAGS is. -/
theorem exec_eq_conclude_of_eflags (i : Instr) (s : State) :
    ∃ x, exec i s = conclude i s x ∧ exec i (s.setEflags f) = conclude i (s.setEflags f) x := by
  cases i with
  | movR32Imm32 r imm => exact ⟨_, exec_movR32Imm32 r imm s, exec_movR32Imm32 r imm _⟩
  | addRm32R32 d => exact ⟨_, exec_addRm32R32 d s, exec_addRm32R32 d _⟩
  | subRm32Imm8 d imm => exact ⟨_, exec_subRm32Imm8 d imm s, exec_subRm32Imm8 d imm _⟩
  | movRm32R32 d => exact ⟨_, exec_movRm32R32 d s, exec_movRm32R32 d _⟩
  | movR32Rm32 d => exact ⟨_, exec_movR32Rm32 d s, exec_movR32Rm32 d _⟩
  | movRm32Imm32 d imm => exact ⟨_, exec_movRm32Imm32 d imm s, exec_movRm32Imm32 d imm _⟩
  | incRm32 d => exact ⟨_, exec_incRm32 d s, exec_incRm32 d _⟩
  | jmpRel32 rel => exact ⟨_, exec_jmpRel32 rel s, exec_jmpRel32 rel _⟩
  | jmpRel8 rel => exact ⟨_, exec_jmpRel8 rel s, exec_jmpRel8 rel _⟩

theorem exec_setEflags (h : exec i s = .next t) : exec i (s.setEflags f) = .next (t.setEflags f) := by
  obtain ⟨x, hx, hxf⟩ := exec_eq_conclude_of_eflags f i s
  rw [hxf]
  exact conclude_setEflags f (hx.symm.trans h)

theorem exec_eflags (h : exec i s = .next t) : t.eflags = s.eflags := by
  obtain ⟨x, hx, -⟩ := exec_eq_conclude i s
  exact (conclude_commonFrame (hx.symm.trans h)).eflags

theorem fetchBytes_setEflags (s : State) : fetchBytes (s.setEflags f) = fetchBytes s := rfl

/-! ### The step -/

theorem step_eflags (h : step s = .next t) : t.eflags = s.eflags := by
  obtain ⟨-, ⟨-, rfl⟩ | ⟨-, r, -, rfl⟩ | ⟨-, i, rest, u, -, hu, rfl⟩⟩ := step_cases h
  · rw [haltRange_eflags]
  · rw [raiseError_eflags]
  · rw [sentinelTest_eflags, exec_eflags hu]

theorem step_setEflags (h : step s = .next t) : step (s.setEflags f) = .next (t.setEflags f) := by
  obtain ⟨hrun, ⟨hout, rfl⟩ | ⟨hin, r, hdec, rfl⟩ | ⟨-, i, rest, u, hdec, hu, rfl⟩⟩ := step_cases h
  · exact step_of_capacity_le (s := s.setEflags f) hrun (Memory.inBounds_eq_false_iff.mp hout)
  · exact step_of_decode_error (s := s.setEflags f) hrun hin hdec
  · rw [← fetchBytes_setEflags f] at hdec
    rw [step_of_decode_ok (s := s.setEflags f) hrun hdec, exec_setEflags f hu, afterInstr_next, sentinelTest_setEflags]

/-! ### The obligation -/

/-- Settles O44: `step` keeps EFLAGS and commutes with replacing it, and the snapshot's nine values leave it out. -/
theorem eflagsIsInert : Obligations.EflagsIsInert :=
  fun _ _ f h => ⟨step_eflags h, step_setEflags f h, rfl⟩

end Sys2Proof.Machine
end

section
/-! PROOFS. The upper four registers and the 8-bit aliases (10_state.md R19), and the register file's ports (R20). -/

namespace Sys2Proof.Machine

/-- No 8-bit id lies in ESP, EBP, ESI or EDI. -/
theorem aliasOwner_not_mem (id : BitVec 3) : aliasOwner id ∉ [Reg32.esp, .ebp, .esi, .edi] := by
  revert id
  decide

theorem ne_aliasOwner_of_mem (id : BitVec 3) {q : Reg32} (h : q ∈ [Reg32.esp, .ebp, .esi, .edi]) : q ≠ aliasOwner id :=
  fun heq => aliasOwner_not_mem id (heq ▸ h)

/-- A read through an 8-bit id sees its owner alone. -/
theorem RegFile.get8_set32_other (x : RegFile) {id : BitVec 3} {q : Reg32} (w : Word) (h : q ≠ aliasOwner id) :
    (x.set32 q w).get8 id = x.get8 id := by
  rw [RegFile.get8_eq_extractLsb', RegFile.get32_set32_other _ w h.symm, ← RegFile.get8_eq_extractLsb']

/-- Settles O8: each of the four is another register than the owner of the id. -/
theorem aliasesNeverReachTheUpperSlots : Obligations.AliasesNeverReachTheUpperSlots :=
  ⟨fun x id v _ hq => x.get32_set8_other v (ne_aliasOwner_of_mem id hq),
    fun x id _ w hq => x.get8_set32_other w (ne_aliasOwner_of_mem id hq)⟩

/-- Settles O47: the reads by definition, the commit by its two enables. -/
theorem registerPortsCarryTheContracts : Obligations.RegisterPortsCarryTheContracts := by
  refine fun x p => ⟨rfl, fun hw hw8 => ?_, fun hw hw8 => ?_, fun hw hw8 => ?_⟩ <;> simp [regPortCommit, hw, hw8]

end Sys2Proof.Machine
end

section
/-! PROOFS. Memory as a byte array (20_memory.md R32, R36, R39): what a byte and a dword read see after a write of
either width, and the memory port (R38). -/

namespace Sys2Proof.Machine

variable {m : Memory}

/-! ### Byte and dword accesses -/

/-- Byte `k` of a dword read is the byte at the `k`-th address. -/
theorem Memory.byteOfDword_readDword (m : Memory) (a : Word) {k : Nat} (hk : k < 4) :
    byteOfDword (m.readDword a) k = m.readByte (a + BitVec.ofNat 32 k) := by
  obtain ⟨h0, h1, h2, h3⟩ := byteOfDword_dwordOfBytes (m.readByte a) (m.readByte (a + 1#32)) (m.readByte (a + 2#32))
    (m.readByte (a + 3#32))
  rw [Memory.readDword]
  interval_cases k
  · simpa using h0
  · exact h1
  · exact h2
  · exact h3

/-- A byte read at the `k`-th address of a dword write sees byte `k` of the value. -/
theorem Memory.readByte_writeDword_covered (h : Rising m.cells) (a v : Word) {k : Nat} (hk : k < 4) :
    (m.writeDword a v).readByte (a + BitVec.ofNat 32 k) = byteOfDword v k := by
  rw [Memory.readByte_writeDword h]
  interval_cases k <;> simp

theorem Memory.readDword_writeDword (h : Rising m.cells) (a v : Word) : (m.writeDword a v).readDword a = v := by
  have h0 : (m.writeDword a v).readByte a = byteOfDword v 0 := by
    simpa using Memory.readByte_writeDword_covered h a v (k := 0) (by decide)
  rw [Memory.readDword, h0, Memory.readByte_writeDword_covered h a v (k := 1) (by decide),
    Memory.readByte_writeDword_covered h a v (k := 2) (by decide),
    Memory.readByte_writeDword_covered h a v (k := 3) (by decide), dwordOfBytes_byteOfDword]

/-! ### The memory port -/

/-- The bytes of an access: 1 or 4. -/
def AccessSize.bytes : AccessSize → Nat
  | .one => 1
  | .four => 4

section Port

variable {p : MemPortIn}

/-- `m_oob` by the byte addresses of the access. -/
theorem memPortOob_iff (m : Memory) (p : MemPortIn) :
    memPortOob m p = true ↔ ∃ k : Nat, k < p.size.bytes ∧ m.capacity ≤ (p.addr + BitVec.ofNat 32 k).toNat := by
  unfold memPortOob AccessSize.bytes
  cases p.size with
  | one =>
    rw [Bool.not_eq_true', Memory.inBounds_eq_false_iff]
    exact ⟨fun h => ⟨0, Nat.one_pos, by simpa using h⟩, fun ⟨k, hk, h⟩ => by simpa [Nat.lt_one_iff.mp hk] using h⟩
  | four =>
    rw [Bool.not_eq_true', ← Bool.not_eq_true, Memory.dwordInBounds_iff]
    push Not
    rfl

@[simp] theorem memPortRead_oob (m : Memory) (p : MemPortIn) : (memPortRead m p).oob = memPortOob m p := rfl

theorem memPortRead_one (hsize : p.size = .one) (hin : memPortOob m p = false) (hwe : p.we = false) :
    memPortRead m p = { rdata := some (zext32 (m.readByte p.addr)), oob := false } := by
  simp [memPortRead, hin, hwe, hsize]

theorem memPortRead_four (hsize : p.size = .four) (hin : memPortOob m p = false) (hwe : p.we = false) :
    memPortRead m p = { rdata := some (m.readDword p.addr), oob := false } := by
  simp [memPortRead, hin, hwe, hsize]

theorem memPortCommit_of_oob (hoob : memPortOob m p = true) : memPortCommit m p = m := by
  simp [memPortCommit, hoob]

theorem memPortCommit_of_read (hwe : p.we = false) : memPortCommit m p = m := by
  simp [memPortCommit, hwe]

theorem memPortCommit_one (hsize : p.size = .one) (hin : memPortOob m p = false) (hwe : p.we = true) :
    memPortCommit m p = m.writeByte p.addr (byteOfDword p.wdata 0) := by
  simp [memPortCommit, hin, hwe, hsize]

theorem memPortCommit_four (hsize : p.size = .four) (hin : memPortOob m p = false) (hwe : p.we = true) :
    memPortCommit m p = m.writeDword p.addr p.wdata := by
  simp [memPortCommit, hin, hwe, hsize]

/-- A commit changes nothing, or writes one byte, or four. -/
theorem memPortCommit_cases (m : Memory) (p : MemPortIn) :
    memPortCommit m p = m ∨
      (p.size = .one ∧ memPortCommit m p = m.writeByte p.addr (byteOfDword p.wdata 0)) ∨
      (p.size = .four ∧ memPortCommit m p = m.writeDword p.addr p.wdata) := by
  cases hoob : memPortOob m p with
  | true => exact .inl (memPortCommit_of_oob hoob)
  | false =>
    cases hwe : p.we with
    | false => exact .inl (memPortCommit_of_read hwe)
    | true =>
      cases hsize : p.size with
      | one => exact .inr (.inl ⟨rfl, memPortCommit_one hsize hoob hwe⟩)
      | four => exact .inr (.inr ⟨rfl, memPortCommit_four hsize hoob hwe⟩)

@[simp] theorem memPortCommit_capacity (m : Memory) (p : MemPortIn) : (memPortCommit m p).capacity = m.capacity := by
  rcases memPortCommit_cases m p with h | ⟨-, h⟩ | ⟨-, h⟩ <;> simp [h]

/-- Bounds depend on MEM_SIZE alone, which no access changes. -/
theorem memPortOob_memPortCommit (m : Memory) (p q : MemPortIn) :
    memPortOob (memPortCommit m p) q = memPortOob m q := by
  rw [Bool.eq_iff_iff, memPortOob_iff, memPortOob_iff, memPortCommit_capacity]

/-- A write inside memory stores the low bytes of `m_wdata`, lowest first. -/
theorem readByte_memPortCommit_covered (h : Rising m.cells) (hin : memPortOob m p = false) (hwe : p.we = true) {k : Nat}
    (hk : k < p.size.bytes) :
    (memPortCommit m p).readByte (p.addr + BitVec.ofNat 32 k) = byteOfDword p.wdata k := by
  cases hsize : p.size with
  | one =>
    rw [hsize, AccessSize.bytes, Nat.lt_one_iff] at hk
    rw [memPortCommit_one hsize hin hwe, Memory.readByte_writeByte h, hk, if_pos (BitVec.add_zero _)]
  | four =>
    rw [hsize, AccessSize.bytes] at hk
    rw [memPortCommit_four hsize hin hwe, Memory.readByte_writeDword_covered h _ _ hk]

/-- An access leaves every byte but its own alone. -/
theorem readByte_memPortCommit_other (h : Rising m.cells) {b : Word}
    (hb : ∀ k : Nat, k < p.size.bytes → b ≠ p.addr + BitVec.ofNat 32 k) :
    (memPortCommit m p).readByte b = m.readByte b := by
  rcases memPortCommit_cases m p with heq | ⟨hsize, heq⟩ | ⟨hsize, heq⟩
  · rw [heq]
  · rw [hsize, AccessSize.bytes] at hb
    rw [heq, Memory.readByte_writeByte h, if_neg (by simpa using hb 0 Nat.one_pos)]
  · rw [hsize, AccessSize.bytes] at hb
    rw [heq, Memory.readByte_writeDword_other h _ hb]

end Port

/-! ### The obligations -/

/-- Settles O10: the bytes of a dword after a write and in a read. -/
theorem mixedWidthAccessSeesTheByteArray : Obligations.MixedWidthAccessSeesTheByteArray := by
  refine ⟨fun m a v k hwf hk => ?_, fun m a k hk => m.byteOfDword_readDword a hk⟩
  obtain ⟨-, -, hrising, -⟩ := hwf
  exact Memory.readByte_writeDword_covered hrising a v hk

/-- Settles O11: a byte read after a write of either width. -/
theorem writeChangesOnlyTheBytesItNames : Obligations.WriteChangesOnlyTheBytesItNames := by
  rintro m a ⟨-, -, hrising, -⟩
  exact ⟨fun v b hb => Memory.readByte_writeDword_other hrising v fun k hk hbk => hb ⟨k, hk, hbk⟩,
    Memory.readByte_writeByte hrising a⟩

/-- Settles O48: the check by its addresses, then the port's read and commit in each width. -/
theorem memoryPortPerformsTheAccess : Obligations.MemoryPortPerformsTheAccess := by
  rintro m p ⟨-, -, hrising, -⟩ n
  refine ⟨memPortOob_iff m p, memPortCommit_of_oob, memPortCommit_of_read, fun hin hwe => ?read,
    fun hin hwe k => readByte_memPortCommit_covered hrising hin hwe, fun hin hwe => ?readBack,
    fun b => readByte_memPortCommit_other hrising, memPortCommit_capacity m p⟩
  case read =>
    cases hsize : p.size with
    | one => rw [memPortRead_one hsize hin hwe]
    | four => rw [memPortRead_four hsize hin hwe]
  case readBack =>
    rw [memPortRead_oob] at hin
    obtain ⟨addr, size, we, wdata⟩ := p
    have hinside : memPortOob (memPortCommit m ⟨addr, size, we, wdata⟩) ⟨addr, size, false, wdata⟩ = false :=
      (memPortOob_memPortCommit m _ _).trans hin
    cases size with
    | one =>
      rw [memPortRead_one rfl hinside rfl, memPortCommit_one rfl hin hwe, Memory.readByte_writeByte hrising, if_pos rfl]
    | four =>
      rw [memPortRead_four rfl hinside rfl, memPortCommit_four rfl hin hwe, Memory.readDword_writeDword hrising]

end Sys2Proof.Machine
end

section
/-! PROOFS. A store and the next fetch (20_memory.md R43, 70_reset_and_hazards.md R115): the fetch reads the memory the
store left, wherever the two overlap. -/

namespace Sys2Proof.Machine

variable {s t : State} {i : Instr} {a v : Word}

/-- The next fetch reads the memory after the store. -/
theorem nextFetchSees_of_mem (hwf : s.mem.wf) (hmem : t.mem = s.mem.writeDword a v) : NextFetchSees s t a v := by
  obtain ⟨-, -, hrising, -⟩ := hwf
  intro k hk hin
  have hbyte : (fetchBytes t)[k]? = some ((s.mem.writeDword a v).readByte (t.eip + BitVec.ofNat 32 k)) := by
    rw [fetchBytes, fetchWindow_getElem? hk hin, hmem]
  refine ⟨fun j hj haddr => ?_, fun hother => ?_⟩
  · rw [hbyte, haddr, Memory.readByte_writeDword_covered hrising a v hj, byteOfDword]
  · rw [hbyte, Memory.readByte_writeDword_other hrising v fun j hj haddr => hother ⟨j, hj, haddr⟩]

/-- A step of an instruction that stores `v` at `a`, or raises an error when a byte of the dword is outside memory, has
stored when it stays running. -/
theorem nextFetchSees_of_exec {rest : List Byte} {p : Word} {k : ErrorKind} {op : Byte} (hwf : s.mem.wf)
    (hrun : s.status = .running) (hstep : step s = .next t) (htrun : t.status = .running)
    (hdec : decode (fetchBytes s) = .ok (i, rest))
    (hexec : (s.DwordInside a → exec i s = .next { s with mem := s.mem.writeDword a v, eip := p }) ∧
      (¬s.DwordInside a → exec i s = .next (s.faultedWith k op))) :
    NextFetchSees s t a v := by
  obtain ⟨hstore, herror⟩ := hexec
  rw [step_of_decode_ok hrun hdec] at hstep
  by_cases hin : s.DwordInside a
  · rw [hstore hin, afterInstr_next] at hstep
    cases hstep
    exact nextFetchSees_of_mem hwf sentinelTest_mem
  · rw [herror hin, afterInstr_next, ← raiseError_eq_faultedWith, sentinelTest_raiseError] at hstep
    cases hstep
    cases htrun

/-- Settles O45: each form's memory case is a store of its value or an error. -/
theorem storeIsSeenByTheNextFetch : Obligations.StoreIsSeenByTheNextFetch := by
  intro s t d imm imm8 rest a hwf hrun hstep htrun hres
  refine ⟨fun hdec => ?_, fun hdec => ?_, fun hdec => ?_, fun hdec => ?_, fun hdec => ?_⟩
  · exact nextFetchSees_of_exec hwf hrun hstep htrun hdec ((movRm32R32MovesTheRegister d s).2 a hres)
  · exact nextFetchSees_of_exec hwf hrun hstep htrun hdec ((movRm32Imm32MovesTheImmediate d imm s).2 a hres)
  · exact nextFetchSees_of_exec hwf hrun hstep htrun hdec ((addRm32R32AddsModulo d s).2 a hres)
  · exact nextFetchSees_of_exec hwf hrun hstep htrun hdec ((subRm32Imm8SubtractsTheSignedByte d imm8 s).2 a hres)
  · exact nextFetchSees_of_exec hwf hrun hstep htrun hdec ((incRm32AddsOne d s).2 a hres)

end Sys2Proof.Machine
end

section
/-! PROOFS. Bytes stored at consecutive addresses: the host's image load (70_reset_and_hazards.md R111) and the word
placed where the next step fetches (log entry 3). -/

namespace Sys2Proof.Machine

variable {m : Memory} {s : State}

/-! ### Reading after `storeBytes` -/

/-- Storing no more bytes than there are addresses, all inside memory: the byte as far from `a` as its place in the
list, what was there elsewhere. -/
theorem Memory.readByte_storeBytes (h : Rising m.cells) {a : Word} {bs : List Byte} (hlen : bs.length ≤ 2 ^ 32)
    (hin : ∀ k : Nat, k < bs.length → (a + BitVec.ofNat 32 k).toNat < m.capacity) (b : Word) :
    (m.storeBytes a bs).readByte b = bs[(b - a).toNat]?.getD (m.readByte b) := by
  induction bs generalizing m a with
  | nil => rfl
  | cons c bs ih =>
    rw [List.length_cons] at hlen hin
    have hfirst : m.inBounds a = true := (m.inBounds_iff a).mpr (by simpa using hin 0 (Nat.succ_pos _))
    have hrest (k : Nat) (hk : k < bs.length) : (a + 1#32 + BitVec.ofNat 32 k).toNat < m.capacity := by
      rw [add_one_add_ofNat]
      exact hin (k + 1) (Nat.succ_lt_succ hk)
    rw [Memory.storeBytes, if_pos hfirst, ih (Memory.writeByte_rising h a c) (by omega) hrest,
      Memory.readByte_writeByte h]
    by_cases hb : b = a
    · have hlast : bs.length ≤ (b - (a + 1#32)).toNat := by bv_omega
      rw [List.getElem?_eq_none hlast, Option.getD_none, if_pos hb, hb, BitVec.sub_self]
      rfl
    · have hnext : (b - a).toNat = (b - (a + 1#32)).toNat + 1 := by bv_omega
      rw [if_neg hb, hnext, List.getElem?_cons_succ]

/-! ### The image load -/

theorem hostLoadImage_inside {offset : Nat} {image : List Byte} (h : offset + image.length ≤ s.mem.capacity) :
    hostLoadImage offset image s = .next (s.setMem (s.mem.storeBytes (BitVec.ofNat 32 offset) image)) :=
  if_pos h

theorem hostLoadImage_outside {offset : Nat} {image : List Byte} (h : s.mem.capacity < offset + image.length) :
    hostLoadImage offset image s = .refused .imageOutsideMemory :=
  if_neg (not_le.mpr h)

/-- Bytes stored at an offset, where they fit without wrapping. -/
theorem Memory.readByte_storeBytes_offset (hwf : m.wf) {offset : Nat} {bs : List Byte}
    (hfit : offset + bs.length ≤ m.capacity) (b : Word) :
    some ((m.storeBytes (BitVec.ofNat 32 offset) bs).readByte b) =
      if offset ≤ b.toNat ∧ b.toNat < offset + bs.length then bs[b.toNat - offset]? else some (m.readByte b) := by
  obtain ⟨-, hcap, hrising, -⟩ := hwf
  have hin (k : Nat) (hk : k < bs.length) : (BitVec.ofNat 32 offset + BitVec.ofNat 32 k).toNat < m.capacity := by
    rw [← BitVec.ofNat_add, BitVec.toNat_ofNat]
    omega
  rw [Memory.readByte_storeBytes hrising (by omega) hin]
  have hdist : (b - BitVec.ofNat 32 offset).toNat = (2 ^ 32 - offset % 2 ^ 32 + b.toNat) % 2 ^ 32 := by
    rw [BitVec.toNat_sub, BitVec.toNat_ofNat]
  have hb := b.isLt
  split
  next hcovered =>
    obtain ⟨hle, hlt⟩ := hcovered
    rw [show (b - BitVec.ofNat 32 offset).toNat = b.toNat - offset by omega,
      List.getElem?_eq_getElem (show b.toNat - offset < bs.length by omega), Option.getD_some]
  next hother =>
    have hout : bs.length ≤ (b - BitVec.ofNat 32 offset).toNat := by
      by_cases hempty : bs.length = 0 <;> omega
    rw [List.getElem?_eq_none hout, Option.getD_none]

/-! ### The placed word -/

@[simp] theorem bytesOfNat_length (n w : Nat) : (bytesOfNat n w).length = n := by
  induction n generalizing w with
  | zero => rfl
  | succ n ih => rw [bytesOfNat, List.length_cons, ih]

theorem tableWordBytes_length (nbits w : Nat) : (tableWordBytes nbits w).length = maxInstrBytes :=
  bytesOfNat_length _ _

/-- With room for the longest instruction at `eip`, a fetch reads the placed word's bytes and no others. -/
theorem fetchBytes_withFetchWord (hwf : s.mem.wf) (hin : s.InstrInside maxInstrBytes) (nbits w : Nat) :
    fetchBytes (s.withFetchWord nbits w) = tableWordBytes nbits w := by
  obtain ⟨-, -, hrising, -⟩ := hwf
  have hlen := tableWordBytes_length nbits w
  have hroom : s.InstrInside (tableWordBytes nbits w).length := hlen ▸ hin
  have hprefix : tableWordBytes nbits w <+: fetchBytes (s.withFetchWord nbits w) := by
    refine prefix_fetchBytes hlen.le (fun k hk => ?_) fun k hk => ?_
    · rw [State.withFetchWord_eip, State.withFetchWord_mem, Memory.storeBytes_capacity]
      exact hroom k hk
    · have hdist : (s.eip + BitVec.ofNat 32 k - s.eip).toNat = k := by
        rw [hlen, maxInstrBytes] at hk
        bv_omega
      rw [State.instrByte, State.withFetchWord_mem, State.withFetchWord_eip,
        Memory.readByte_storeBytes hrising (by rw [hlen]; decide) hroom, hdist,
        List.getElem?_eq_getElem hk, Option.getD_some]
  refine (hprefix.eq_of_length_le ?_).symm
  rw [hlen]
  exact fetchWindow_length_le _ _ _

theorem decodeTableWord_eq_some {nbits w : Nat} {i : Instr} (h : decodeTableWord nbits w = some i) :
    ∃ rest, decode (tableWordBytes nbits w) = .ok (i, rest) := by
  unfold decodeTableWord at h
  split at h
  next j rest hdec =>
    cases h
    exact ⟨rest, hdec⟩
  next => cases h

/-! ### The obligations -/

/-- Settles O53: an image that fits is read back by `readByte_storeBytes_offset`. -/
theorem imageLoadingCopiesTheImage : Obligations.ImageLoadingCopiesTheImage := by
  refine fun offset image s hwf => ⟨fun hfit => ?_, hostLoadImage_outside⟩
  exact ⟨_, hostLoadImage_inside hfit, Memory.storeBytes_wf hwf _ image, Memory.storeBytes_capacity _ _ image,
    rfl, rfl, rfl, rfl, Memory.readByte_storeBytes_offset hwf hfit⟩

/-- Settles O54: the placed bytes are the bytes fetched, so the step runs what they decode to. -/
theorem placedWordIsRunByTheNextStep : Obligations.PlacedWordIsRunByTheNextStep := by
  intro s nbits w i hwf hin hword
  obtain ⟨rest, hdec⟩ := decodeTableWord_eq_some hword
  rw [← fetchBytes_withFetchWord hwf hin] at hdec
  exact step_of_decode_ok (State.withFetchWord_status s nbits w) hdec

end Sys2Proof.Machine
end

section
/-! PROOFS. Construction and the invariant (10_state.md R27, 00_scope.md R7), the register snapshot (R29), and the error
codes (60_exceptions.md R91). -/

namespace Sys2Proof.Machine

theorem State.construct_inv {memSize : Nat} (initEip initEsp : Word) (eflags : BitVec 32) (h1 : 1 ≤ memSize)
    (h2 : memSize ≤ 2 ^ 32) : (State.construct memSize initEip initEsp eflags).Inv :=
  ⟨Memory.zeroed_wf h1 h2, statusCoherent_of_running (State.construct_status memSize initEip initEsp eflags)⟩

/-- Settles O2: construction with MEM_SIZE in its domain, of which `State.reset` is one. -/
theorem constructionMeetsTheInvariant : Obligations.ConstructionMeetsTheInvariant :=
  ⟨fun _ initEip initEsp eflags => State.construct_inv initEip initEsp eflags,
    State.construct_inv _ _ _ (by decide) (by decide)⟩

/-- Settles O9, by definition. -/
theorem snapshotIsTheNineValuesInOrder : Obligations.SnapshotIsTheNineValuesInOrder :=
  fun _ => rfl

/-- Settles O52: the codes by definition, the kinds by their constructors. -/
theorem errorKindsHaveTheirCodes : Obligations.ErrorKindsHaveTheirCodes := by
  refine ⟨rfl, rfl, rfl, fun kind => ?_⟩
  cases kind <;> simp

end Sys2Proof.Machine
end
